-- ==== Sys2Proof/Word.lean ====
section
/-! DEFINITION. The fixed widths of the block (spec 00_scope.md R9, R11). -/

namespace Sys2Proof

/-- An 8-bit unsigned value: a general register, a timer, a byte of memory, the field `NN`. -/
abbrev Byte := BitVec 8

/-- A 16-bit unsigned value: `I`, `PC`, a stack entry, an instruction word. -/
abbrev Word := BitVec 16

/-- The 12-bit field `NNN` (30_encoding.md R91). -/
abbrev Addr12 := BitVec 12

/-- A 4-bit field of an instruction word (30_encoding.md R91). -/
abbrev Nibble := BitVec 4

/-- The index of a general register, 0x0 to 0xF (10_state.md R20). -/
abbrev Reg := Fin 16

/-- A key code, 0x0 to 0xF (10_state.md R36). -/
abbrev KeyCode := Fin 16

end Sys2Proof
end

