-- ==== Sys2Proof/Config.lean ====
section
/-! DEFINITION. The block's fixed values, its named parameters and its one free value
(spec 00_scope.md R9, R10; 10_state.md R43, R44; 42_random.md R170). -/

namespace Sys2Proof

/-- `MEM_SIZE`: addresses 0x000 to 0xFFF (00_scope.md R9). -/
def memSize : Nat := 4096

/-- `PROGRAM_BASE` (00_scope.md R9). -/
def programBase : Nat := 0x200

/-- `PROGRAM_MAX` = 4096 - 0x200 (00_scope.md R9). -/
def programMax : Nat := 3584

/-- `FONT_BASE` (00_scope.md R9; D20). -/
def fontBase : Nat := 0x000

/-- `FONT_GLYPHS` x `FONT_GLYPH_BYTES` = 80 bytes (00_scope.md R9). -/
def fontGlyphBytes : Nat := 5

/-- `SHIFT_SOURCE` (00_scope.md R9; 41_arithmetic.md R150, R151; D4). -/
inductive ShiftSource where
  /-- The source is `V[x]`. -/
  | vx
  /-- The source is `V[y]`. -/
  | vy
deriving DecidableEq, Repr

/-- `INDEX_AFTER_LDST` (00_scope.md R9; 43_memory_index.md R183, R184; D5). -/
inductive IndexAfterLdst where
  /-- `I` keeps its value. -/
  | unchanged
  /-- `I` becomes `I + X + 1`. -/
  | addXPlus1
deriving DecidableEq, Repr

/-- `KEY_WAIT_TRIGGER` (00_scope.md R9; 45_input.md R224; D13). -/
inductive KeyWaitTrigger where
  /-- A key qualifies when it is pressed now and was not at the previous execution of the wait. -/
  | pressEdge
  /-- A key qualifies when it is pressed now. -/
  | level
deriving DecidableEq, Repr

/-- The named parameters of the model, fixed for a whole run (00_scope.md R9, R10).
They ride in `Machine.State.cfg`, which no step and no host action changes (log 1). -/
structure Config where
  shiftSource : ShiftSource
  indexAfterLdst : IndexAfterLdst
  keyWaitTrigger : KeyWaitTrigger
  /-- `FONT`: the 80 bytes at 0x000 after reset. -/
  font : Vector Byte 80
deriving DecidableEq, Repr

/-- The default `FONT`, one line a glyph, 0 to F (10_state.md R44). -/
def defaultFont : Vector Byte 80 := #v[
  0xF0, 0x90, 0x90, 0x90, 0xF0,
  0x20, 0x60, 0x20, 0x20, 0x70,
  0xF0, 0x10, 0xF0, 0x80, 0xF0,
  0xF0, 0x10, 0xF0, 0x10, 0xF0,
  0x90, 0x90, 0xF0, 0x10, 0x10,
  0xF0, 0x80, 0xF0, 0x10, 0xF0,
  0xF0, 0x80, 0xF0, 0x90, 0xF0,
  0xF0, 0x10, 0x20, 0x40, 0x40,
  0xF0, 0x90, 0xF0, 0x90, 0xF0,
  0xF0, 0x90, 0xF0, 0x10, 0xF0,
  0xF0, 0x90, 0xF0, 0x90, 0x90,
  0xE0, 0x90, 0xE0, 0x90, 0xE0,
  0xF0, 0x80, 0x80, 0x80, 0xF0,
  0xE0, 0x90, 0x90, 0x90, 0xE0,
  0xF0, 0x80, 0xF0, 0x80, 0xF0,
  0xF0, 0x80, 0xF0, 0x80, 0x80]

/-- The spec's default of each parameter (00_scope.md R9). -/
def Config.default : Config where
  shiftSource := .vx
  indexAfterLdst := .unchanged
  keyWaitTrigger := .pressEdge
  font := defaultFont

/-- What byte address `a` holds after reset: `FONT` at 0x000 to 0x04F, 0 elsewhere
(10_state.md R42; 20_memory.md R70; `fontBase` is 0). This is also what an address that `State.mem` does not list
reads as. -/
def Config.resetByte (c : Config) (a : Nat) : Byte :=
  c.font.getD a 0

/-- FREE VALUE. The `n`-th random byte that no host action presents: 42_random.md R170 gives it no law,
so it has no body and no proof sees a value of it (log 2). -/
opaque Config.freeRand : Nat → Byte

end Sys2Proof
end

