-- ==== Sys2Proof/Syntax.lean ====
section
/-! DEFINITION. The instruction set: one constructor for each row of spec/opcode_table.json
(spec 30_encoding.md R97), and its assembler text (R102). -/

namespace Sys2Proof

/-- The 34 instructions of the block (30_encoding.md R97), in the order of the table.
`x`, `y` are register indices, `nn` an 8-bit immediate, `nnn` a 12-bit address, `n` a row count (R93). -/
inductive Instr where
  /-- `00E0` `CLS`, 44_display.md R200. -/
  | cls
  /-- `00EE` `RET`, 40_control_flow.md R123. -/
  | ret
  /-- `1NNN` `JP addr`, 40_control_flow.md R121. -/
  | jp (nnn : Addr12)
  /-- `2NNN` `CALL addr`, 40_control_flow.md R122. -/
  | call (nnn : Addr12)
  /-- `3XNN` `SE Vx, byte`, 40_control_flow.md R124. -/
  | seByte (x : Reg) (nn : Byte)
  /-- `4XNN` `SNE Vx, byte`, 40_control_flow.md R125. -/
  | sneByte (x : Reg) (nn : Byte)
  /-- `5XY0` `SE Vx, Vy`, 40_control_flow.md R126. -/
  | seReg (x y : Reg)
  /-- `6XNN` `LD Vx, byte`, 41_arithmetic.md R141. -/
  | ldByte (x : Reg) (nn : Byte)
  /-- `7XNN` `ADD Vx, byte`, 41_arithmetic.md R142. -/
  | addByte (x : Reg) (nn : Byte)
  /-- `8XY0` `LD Vx, Vy`, 41_arithmetic.md R143. -/
  | ldReg (x y : Reg)
  /-- `8XY1` `OR Vx, Vy`, 41_arithmetic.md R144. -/
  | orReg (x y : Reg)
  /-- `8XY2` `AND Vx, Vy`, 41_arithmetic.md R145. -/
  | andReg (x y : Reg)
  /-- `8XY3` `XOR Vx, Vy`, 41_arithmetic.md R146. -/
  | xorReg (x y : Reg)
  /-- `8XY4` `ADD Vx, Vy`, 41_arithmetic.md R147. -/
  | addReg (x y : Reg)
  /-- `8XY5` `SUB Vx, Vy`, 41_arithmetic.md R148. -/
  | sub (x y : Reg)
  /-- `8XY6` `SHR Vx {, Vy}`, 41_arithmetic.md R150. -/
  | shr (x y : Reg)
  /-- `8XY7` `SUBN Vx, Vy`, 41_arithmetic.md R149. -/
  | subn (x y : Reg)
  /-- `8XYE` `SHL Vx {, Vy}`, 41_arithmetic.md R151. -/
  | shl (x y : Reg)
  /-- `9XY0` `SNE Vx, Vy`, 40_control_flow.md R127. -/
  | sneReg (x y : Reg)
  /-- `ANNN` `LD I, addr`, 43_memory_index.md R180. -/
  | ldI (nnn : Addr12)
  /-- `BNNN` `JP V0, addr`, 40_control_flow.md R128. -/
  | jpV0 (nnn : Addr12)
  /-- `CXNN` `RND Vx, byte`, 42_random.md R171. -/
  | rnd (x : Reg) (nn : Byte)
  /-- `DXYN` `DRW Vx, Vy, nibble`, 44_display.md R204. -/
  | drw (x y : Reg) (n : Nibble)
  /-- `EX9E` `SKP Vx`, 45_input.md R222. -/
  | skp (x : Reg)
  /-- `EXA1` `SKNP Vx`, 45_input.md R223. -/
  | sknp (x : Reg)
  /-- `FX07` `LD Vx, DT`, 46_timers.md R240. -/
  | ldVxDt (x : Reg)
  /-- `FX0A` `LD Vx, K`, 45_input.md R224. -/
  | ldVxK (x : Reg)
  /-- `FX15` `LD DT, Vx`, 46_timers.md R241. -/
  | ldDtVx (x : Reg)
  /-- `FX18` `LD ST, Vx`, 46_timers.md R242. -/
  | ldStVx (x : Reg)
  /-- `FX1E` `ADD I, Vx`, 43_memory_index.md R181. -/
  | addI (x : Reg)
  /-- `FX29` `LD F, Vx`, 43_memory_index.md R182. -/
  | ldF (x : Reg)
  /-- `FX33` `LD B, Vx`, 43_memory_index.md R185. -/
  | ldB (x : Reg)
  /-- `FX55` `LD [I], Vx`, 43_memory_index.md R183. -/
  | ldMemVx (x : Reg)
  /-- `FX65` `LD Vx, [I]`, 43_memory_index.md R184. -/
  | ldVxMem (x : Reg)
deriving DecidableEq, Repr

/-! ## Assembler text (30_encoding.md R102) -/

/-- One upper-case hexadecimal digit. -/
def hexDigit (d : Fin 16) : String :=
  ["0", "1", "2", "3", "4", "5", "6", "7", "8", "9", "A", "B", "C", "D", "E", "F"].getD d.val ""

/-- `V0` to `VF`. -/
def Reg.asm (x : Reg) : String := "V" ++ hexDigit x

/-- `0xNN`. -/
def byteAsm (b : Byte) : String :=
  "0x" ++ hexDigit (b.extractLsb' 4 4).toFin ++ hexDigit (b.extractLsb' 0 4).toFin

/-- `0xNNN`. -/
def addrAsm (a : Addr12) : String :=
  "0x" ++ hexDigit (a.extractLsb' 8 4).toFin ++ hexDigit (a.extractLsb' 4 4).toFin
    ++ hexDigit (a.extractLsb' 0 4).toFin

/-- The instruction in the syntax of 30_encoding.md R102: the mnemonics of R97 with the operands written in.
A row count is written as one hexadecimal digit after `0x`. -/
def Instr.asm : Instr → String
  | .cls => "CLS"
  | .ret => "RET"
  | .jp nnn => "JP " ++ addrAsm nnn
  | .call nnn => "CALL " ++ addrAsm nnn
  | .seByte x nn => "SE " ++ Reg.asm x ++ ", " ++ byteAsm nn
  | .sneByte x nn => "SNE " ++ Reg.asm x ++ ", " ++ byteAsm nn
  | .seReg x y => "SE " ++ Reg.asm x ++ ", " ++ Reg.asm y
  | .ldByte x nn => "LD " ++ Reg.asm x ++ ", " ++ byteAsm nn
  | .addByte x nn => "ADD " ++ Reg.asm x ++ ", " ++ byteAsm nn
  | .ldReg x y => "LD " ++ Reg.asm x ++ ", " ++ Reg.asm y
  | .orReg x y => "OR " ++ Reg.asm x ++ ", " ++ Reg.asm y
  | .andReg x y => "AND " ++ Reg.asm x ++ ", " ++ Reg.asm y
  | .xorReg x y => "XOR " ++ Reg.asm x ++ ", " ++ Reg.asm y
  | .addReg x y => "ADD " ++ Reg.asm x ++ ", " ++ Reg.asm y
  | .sub x y => "SUB " ++ Reg.asm x ++ ", " ++ Reg.asm y
  | .shr x y => "SHR " ++ Reg.asm x ++ ", " ++ Reg.asm y
  | .subn x y => "SUBN " ++ Reg.asm x ++ ", " ++ Reg.asm y
  | .shl x y => "SHL " ++ Reg.asm x ++ ", " ++ Reg.asm y
  | .sneReg x y => "SNE " ++ Reg.asm x ++ ", " ++ Reg.asm y
  | .ldI nnn => "LD I, " ++ addrAsm nnn
  | .jpV0 nnn => "JP V0, " ++ addrAsm nnn
  | .rnd x nn => "RND " ++ Reg.asm x ++ ", " ++ byteAsm nn
  | .drw x y n => "DRW " ++ Reg.asm x ++ ", " ++ Reg.asm y ++ ", 0x" ++ hexDigit n.toFin
  | .skp x => "SKP " ++ Reg.asm x
  | .sknp x => "SKNP " ++ Reg.asm x
  | .ldVxDt x => "LD " ++ Reg.asm x ++ ", DT"
  | .ldVxK x => "LD " ++ Reg.asm x ++ ", K"
  | .ldDtVx x => "LD DT, " ++ Reg.asm x
  | .ldStVx x => "LD ST, " ++ Reg.asm x
  | .addI x => "ADD I, " ++ Reg.asm x
  | .ldF x => "LD F, " ++ Reg.asm x
  | .ldB x => "LD B, " ++ Reg.asm x
  | .ldMemVx x => "LD [I], " ++ Reg.asm x
  | .ldVxMem x => "LD " ++ Reg.asm x ++ ", [I]"

end Sys2Proof
end

