-- ==== Sys2Proof/WellFormed.lean ====
section
/-! DEFINITION. What makes an instruction term well formed: every operand is in the range that
30_encoding.md R91 and R102 give it. `Instr` carries those ranges in its types (a register index is a
`Fin 16`, `NN` 8 bits, `NNN` 12 bits, `N` 4 bits), so the check is about NUMBERS: the operands a source line
writes, before a term is built, and the operands a term holds, read back as numbers. -/

namespace Sys2Proof

/-- An operand as a source line writes it (30_encoding.md R102): a kind and a number. -/
inductive Operand where
  /-- `V0` to `VF`. -/
  | reg (k : Nat)
  /-- `byte`, 0 to 255. -/
  | byte (k : Nat)
  /-- `addr`, 0 to 0xFFF. -/
  | addr (k : Nat)
  /-- `nibble`, 0 to 15. -/
  | nibble (k : Nat)
deriving DecidableEq, Repr

/-- The range of each kind of operand (30_encoding.md R91, R93, R102). -/
def Operand.inRange : Operand → Bool
  | .reg k => decide (k < 16)
  | .byte k => decide (k < 256)
  | .addr k => decide (k < 4096)
  | .nibble k => decide (k < 16)

/-- The operands of an instruction as numbers, in the order of its mnemonic. -/
def Instr.operands : Instr → List Operand
  | .cls => []
  | .ret => []
  | .jp nnn => [.addr nnn.toNat]
  | .call nnn => [.addr nnn.toNat]
  | .seByte x nn => [.reg x, .byte nn.toNat]
  | .sneByte x nn => [.reg x, .byte nn.toNat]
  | .seReg x y => [.reg x, .reg y]
  | .ldByte x nn => [.reg x, .byte nn.toNat]
  | .addByte x nn => [.reg x, .byte nn.toNat]
  | .ldReg x y => [.reg x, .reg y]
  | .orReg x y => [.reg x, .reg y]
  | .andReg x y => [.reg x, .reg y]
  | .xorReg x y => [.reg x, .reg y]
  | .addReg x y => [.reg x, .reg y]
  | .sub x y => [.reg x, .reg y]
  | .shr x y => [.reg x, .reg y]
  | .subn x y => [.reg x, .reg y]
  | .shl x y => [.reg x, .reg y]
  | .sneReg x y => [.reg x, .reg y]
  | .ldI nnn => [.addr nnn.toNat]
  | .jpV0 nnn => [.addr nnn.toNat]
  | .rnd x nn => [.reg x, .byte nn.toNat]
  | .drw x y n => [.reg x, .reg y, .nibble n.toNat]
  | .skp x => [.reg x]
  | .sknp x => [.reg x]
  | .ldVxDt x => [.reg x]
  | .ldVxK x => [.reg x]
  | .ldDtVx x => [.reg x]
  | .ldStVx x => [.reg x]
  | .addI x => [.reg x]
  | .ldF x => [.reg x]
  | .ldB x => [.reg x]
  | .ldMemVx x => [.reg x]
  | .ldVxMem x => [.reg x]

/-- Every operand is in its range. -/
def Instr.wellFormed (i : Instr) : Bool := i.operands.all Operand.inRange

/-! ## From written operands to a term, one function a format (30_encoding.md R92) -/

/-- A register operand; none outside 0 to 15. -/
def Operand.toReg? (k : Nat) : Option Reg :=
  if h : k < 16 then some ⟨k, h⟩ else none

/-- A byte operand; none outside 0 to 255. -/
def Operand.toByte? (k : Nat) : Option Byte :=
  if (Operand.byte k).inRange then some (BitVec.ofNat 8 k) else none

/-- An address operand; none outside 0 to 0xFFF. -/
def Operand.toAddr? (k : Nat) : Option Addr12 :=
  if (Operand.addr k).inRange then some (BitVec.ofNat 12 k) else none

/-- A row-count operand; none outside 0 to 15. -/
def Operand.toNibble? (k : Nat) : Option Nibble :=
  if (Operand.nibble k).inRange then some (BitVec.ofNat 4 k) else none

/-- Format `ADDR`. -/
def assembleAddr (build : Addr12 → Instr) (nnn : Nat) : Option Instr :=
  (Operand.toAddr? nnn).map build

/-- Format `XNN`. -/
def assembleXNN (build : Reg → Byte → Instr) (x nn : Nat) : Option Instr :=
  match Operand.toReg? x, Operand.toByte? nn with
  | some x, some nn => some (build x nn)
  | _, _ => none

/-- Format `XYS`. The `Vy` of `SHR` and `SHL` may be left out and is then 0 (30_encoding.md R102). -/
def assembleXYS (build : Reg → Reg → Instr) (x : Nat) (y : Option Nat) : Option Instr :=
  match Operand.toReg? x, Operand.toReg? (y.getD 0) with
  | some x, some y => some (build x y)
  | _, _ => none

/-- Format `XYN`. -/
def assembleXYN (build : Reg → Reg → Nibble → Instr) (x y n : Nat) : Option Instr :=
  match Operand.toReg? x, Operand.toReg? y, Operand.toNibble? n with
  | some x, some y, some n => some (build x y n)
  | _, _, _ => none

/-- Format `XS`. -/
def assembleXS (build : Reg → Instr) (x : Nat) : Option Instr :=
  (Operand.toReg? x).map build

end Sys2Proof
end

