-- ==== Sys2Proof/Decode.lean ====
section
/-! DEFINITION. The decoder, total on every word and on every byte list, and after it the encoder, both
written from the opcode table of spec 30_encoding.md R97 (fields: R91, formats: R92). -/

namespace Sys2Proof

/-! ## Fields of a word (30_encoding.md R91) -/

/-- `X`, `w[11:8]`. -/
def fieldX (w : Word) : Reg := (w.extractLsb' 8 4).toFin

/-- `Y`, `w[7:4]`. -/
def fieldY (w : Word) : Reg := (w.extractLsb' 4 4).toFin

/-- `N`, `w[3:0]`. -/
def fieldN (w : Word) : Nibble := w.extractLsb' 0 4

/-- `NN`, `w[7:0]`. -/
def fieldNN (w : Word) : Byte := w.extractLsb' 0 8

/-- `NNN`, `w[11:0]`. -/
def fieldNNN (w : Word) : Addr12 := w.extractLsb' 0 12

/-! ## The opcode table (30_encoding.md R97) -/

/-- One row: the fixed bits, and the instruction that a matching word stands for. -/
structure Row where
  pattern : Word
  mask : Word
  build : Word → Instr

/-- 30_encoding.md R95: `w & mask = match`. -/
def Row.matches (r : Row) (w : Word) : Bool := w &&& r.mask == r.pattern

/-- The 34 rows of 30_encoding.md R97, in its order. -/
def opcodeTable : List Row := [
  ⟨0x00E0, 0xFFFF, fun _ => .cls⟩,
  ⟨0x00EE, 0xFFFF, fun _ => .ret⟩,
  ⟨0x1000, 0xF000, fun w => .jp (fieldNNN w)⟩,
  ⟨0x2000, 0xF000, fun w => .call (fieldNNN w)⟩,
  ⟨0x3000, 0xF000, fun w => .seByte (fieldX w) (fieldNN w)⟩,
  ⟨0x4000, 0xF000, fun w => .sneByte (fieldX w) (fieldNN w)⟩,
  ⟨0x5000, 0xF00F, fun w => .seReg (fieldX w) (fieldY w)⟩,
  ⟨0x6000, 0xF000, fun w => .ldByte (fieldX w) (fieldNN w)⟩,
  ⟨0x7000, 0xF000, fun w => .addByte (fieldX w) (fieldNN w)⟩,
  ⟨0x8000, 0xF00F, fun w => .ldReg (fieldX w) (fieldY w)⟩,
  ⟨0x8001, 0xF00F, fun w => .orReg (fieldX w) (fieldY w)⟩,
  ⟨0x8002, 0xF00F, fun w => .andReg (fieldX w) (fieldY w)⟩,
  ⟨0x8003, 0xF00F, fun w => .xorReg (fieldX w) (fieldY w)⟩,
  ⟨0x8004, 0xF00F, fun w => .addReg (fieldX w) (fieldY w)⟩,
  ⟨0x8005, 0xF00F, fun w => .sub (fieldX w) (fieldY w)⟩,
  ⟨0x8006, 0xF00F, fun w => .shr (fieldX w) (fieldY w)⟩,
  ⟨0x8007, 0xF00F, fun w => .subn (fieldX w) (fieldY w)⟩,
  ⟨0x800E, 0xF00F, fun w => .shl (fieldX w) (fieldY w)⟩,
  ⟨0x9000, 0xF00F, fun w => .sneReg (fieldX w) (fieldY w)⟩,
  ⟨0xA000, 0xF000, fun w => .ldI (fieldNNN w)⟩,
  ⟨0xB000, 0xF000, fun w => .jpV0 (fieldNNN w)⟩,
  ⟨0xC000, 0xF000, fun w => .rnd (fieldX w) (fieldNN w)⟩,
  ⟨0xD000, 0xF000, fun w => .drw (fieldX w) (fieldY w) (fieldN w)⟩,
  ⟨0xE09E, 0xF0FF, fun w => .skp (fieldX w)⟩,
  ⟨0xE0A1, 0xF0FF, fun w => .sknp (fieldX w)⟩,
  ⟨0xF007, 0xF0FF, fun w => .ldVxDt (fieldX w)⟩,
  ⟨0xF00A, 0xF0FF, fun w => .ldVxK (fieldX w)⟩,
  ⟨0xF015, 0xF0FF, fun w => .ldDtVx (fieldX w)⟩,
  ⟨0xF018, 0xF0FF, fun w => .ldStVx (fieldX w)⟩,
  ⟨0xF01E, 0xF0FF, fun w => .addI (fieldX w)⟩,
  ⟨0xF029, 0xF0FF, fun w => .ldF (fieldX w)⟩,
  ⟨0xF033, 0xF0FF, fun w => .ldB (fieldX w)⟩,
  ⟨0xF055, 0xF0FF, fun w => .ldMemVx (fieldX w)⟩,
  ⟨0xF065, 0xF0FF, fun w => .ldVxMem (fieldX w)⟩]

/-! ## Decoding -/

/-- The instruction a word stands for; none when the word is unknown (30_encoding.md R95, R98). -/
def decode (w : Word) : Option Instr :=
  (opcodeTable.find? (·.matches w)).map (·.build w)

/-- Why a byte list holds no instruction at its head. -/
inductive DecodeError where
  /-- The word matches no row (30_encoding.md R98). -/
  | unknownInstruction (w : Word)
  /-- Fewer than two bytes (30_encoding.md R90: an instruction is two bytes). -/
  | truncated
deriving DecidableEq, Repr

/-- A word from its two bytes, the one at the lower address first (20_memory.md R66). -/
def wordOfBytes (hi lo : Byte) : Word := hi ++ lo

/-- The instruction at the head of a byte list and the rest of the list. -/
def decodeBytes : List Byte → Except DecodeError (Instr × List Byte)
  | hi :: lo :: rest =>
    match decode (wordOfBytes hi lo) with
    | some i => .ok (i, rest)
    | none => .error (.unknownInstruction (wordOfBytes hi lo))
  | _ => .error .truncated

/-! ## Encoding -/

/-- Format `ADDR` (30_encoding.md R92). -/
def encodeAddr (op : Nibble) (nnn : Addr12) : Word := op ++ nnn

/-- Format `XNN`. -/
def encodeXNN (op : Nibble) (x : Reg) (nn : Byte) : Word := op ++ (BitVec.ofFin x : Nibble) ++ nn

/-- Formats `XYS` and `XYN`: the last nibble is the sub-opcode or the row count. -/
def encodeXYN (op : Nibble) (x y : Reg) (n : Nibble) : Word :=
  op ++ (BitVec.ofFin x : Nibble) ++ (BitVec.ofFin y : Nibble) ++ n

/-- The word of an instruction, written from the patterns of 30_encoding.md R97. -/
def encode : Instr → Word
  | .cls => 0x00E0
  | .ret => 0x00EE
  | .jp nnn => encodeAddr 0x1 nnn
  | .call nnn => encodeAddr 0x2 nnn
  | .seByte x nn => encodeXNN 0x3 x nn
  | .sneByte x nn => encodeXNN 0x4 x nn
  | .seReg x y => encodeXYN 0x5 x y 0x0
  | .ldByte x nn => encodeXNN 0x6 x nn
  | .addByte x nn => encodeXNN 0x7 x nn
  | .ldReg x y => encodeXYN 0x8 x y 0x0
  | .orReg x y => encodeXYN 0x8 x y 0x1
  | .andReg x y => encodeXYN 0x8 x y 0x2
  | .xorReg x y => encodeXYN 0x8 x y 0x3
  | .addReg x y => encodeXYN 0x8 x y 0x4
  | .sub x y => encodeXYN 0x8 x y 0x5
  | .shr x y => encodeXYN 0x8 x y 0x6
  | .subn x y => encodeXYN 0x8 x y 0x7
  | .shl x y => encodeXYN 0x8 x y 0xE
  | .sneReg x y => encodeXYN 0x9 x y 0x0
  | .ldI nnn => encodeAddr 0xA nnn
  | .jpV0 nnn => encodeAddr 0xB nnn
  | .rnd x nn => encodeXNN 0xC x nn
  | .drw x y n => encodeXYN 0xD x y n
  | .skp x => encodeXNN 0xE x 0x9E
  | .sknp x => encodeXNN 0xE x 0xA1
  | .ldVxDt x => encodeXNN 0xF x 0x07
  | .ldVxK x => encodeXNN 0xF x 0x0A
  | .ldDtVx x => encodeXNN 0xF x 0x15
  | .ldStVx x => encodeXNN 0xF x 0x18
  | .addI x => encodeXNN 0xF x 0x1E
  | .ldF x => encodeXNN 0xF x 0x29
  | .ldB x => encodeXNN 0xF x 0x33
  | .ldMemVx x => encodeXNN 0xF x 0x55
  | .ldVxMem x => encodeXNN 0xF x 0x65

/-- The two bytes of a word as memory holds them, the more significant at the lower address
(20_memory.md R66). -/
def bytesOfWord (w : Word) : List Byte := [w.extractLsb' 8 8, w.extractLsb' 0 8]

/-- The bytes of an instruction in memory. -/
def encodeBytes (i : Instr) : List Byte := bytesOfWord (encode i)

/-! ## A word as spec/opcode_table.json numbers its bits -/

/-- The one 16-bit word of the `nbits` low bits of `w`, the bits above them 0: the table numbers bit 0 as
the least significant bit of the word, and every row has one word (30_encoding.md R90). -/
def tableWord (nbits w : Nat) : Word := BitVec.ofNat 16 (w % 2 ^ nbits)

/-- What the decoder reads from that word laid out in memory order. -/
def decodeTableWord (nbits w : Nat) : Option Instr :=
  match decodeBytes (bytesOfWord (tableWord nbits w)) with
  | .ok (i, _) => some i
  | .error _ => none

/-- A listing line: `address: word  mnemonic` without the address (30_encoding.md R102). -/
def Instr.listing (i : Instr) : String :=
  hexDigit ((encode i).extractLsb' 12 4).toFin ++ hexDigit ((encode i).extractLsb' 8 4).toFin
    ++ hexDigit ((encode i).extractLsb' 4 4).toFin ++ hexDigit ((encode i).extractLsb' 0 4).toFin
    ++ "  " ++ i.asm

end Sys2Proof
end

