-- ==== Sys2Proof/Machine/State.lean ====
section
/-! DEFINITION. The block's state as plain data (spec 10_state.md R20 to R42), its reset value (R42), and the
reasons a step can stop. -/

namespace Sys2Proof.Machine

/-- Memory: the bytes that differ from the reset contents, addresses strictly rising (`Memory.wf`).
An address not listed reads as `Config.resetByte` (10_state.md R33, R42; 20_memory.md R70). -/
abbrev Memory := List Host.Cell

/-- The display buffer, column first, so that `fb[x][y]` reads as in 10_state.md R34. -/
abbrev Display := Vector (Vector Bool 32) 64

/-- The 16 flags of the input latch (10_state.md R36), also the shape of a snapshot of it (R40). -/
abbrev Latch := Vector Bool 16

/-- The four fatal errors (60_exceptions.md R251). -/
inductive FaultKind where
  | memoryFault
  | unknownInstruction
  | stackOverflow
  | stackUnderflow
deriving DecidableEq, Repr

/-- The cause code of 60_exceptions.md R251. -/
def FaultKind.code : FaultKind → Nat
  | .memoryFault => 1
  | .unknownInstruction => 2
  | .stackOverflow => 3
  | .stackUnderflow => 4

/-- The fault record of 60_exceptions.md R254. -/
structure FaultRecord where
  kind : FaultKind
  /-- The fetch address of the step that failed; for a host-port fault the current `PC`. -/
  pc : Word
  /-- The fetched word; absent when the fetch faulted and for a host-port fault. -/
  word : Option Word
  /-- For `memoryFault` the lowest invalid byte address, an unbounded natural (20_memory.md R62). -/
  addr : Option Nat
deriving DecidableEq, Repr

/-- The run status (10_state.md R41). -/
inductive Status where
  | running
  | faulted (r : FaultRecord)
deriving DecidableEq, Repr

/-- The block's whole state (10_state.md R42), the parameters it was built with (00_scope.md R10) and the
two fields that hold the model's free draw (42_random.md R170). -/
structure State where
  /-- `V[0]` to `V[15]` (R20). -/
  v : Vector Byte 16
  /-- The index register `I` (R28). -/
  i : Word
  /-- The program counter `PC` (R25). -/
  pc : Word
  /-- The stack depth `SP`, 0 to 16 (R31). -/
  sp : Fin 17
  /-- `stack[0]` to `stack[15]` (R31). -/
  stack : Vector Word 16
  /-- The delay timer `DT` (R29). -/
  dt : Byte
  /-- The sound timer `ST` (R30). -/
  st : Byte
  /-- `M` (R33). -/
  mem : Memory
  /-- `fb[x][y]` (R34). -/
  fb : Display
  /-- `key[0]` to `key[15]` (R36). -/
  key : Latch
  /-- The awaiting-key state (R40). -/
  wait : Option Latch
  /-- The run status (R41). -/
  status : Status
  /-- MODEL: the parameters, never changed (R43; log 1). -/
  cfg : Config
  /-- MODEL: the byte the host presents as the next draw, if it presents one (log 2). -/
  randIn : Option Byte
  /-- MODEL: how many free values were drawn (log 2). -/
  draws : Nat
deriving DecidableEq, Repr

/-- The state right after reset of a block built with the parameters `c` (10_state.md R42; 70_reset_and_hazards.md
R290): every field as R42 says, nothing listed in memory. -/
def State.resetWith (c : Config) : State where
  v := Vector.replicate 16 0
  i := 0
  pc := 0x200
  sp := 0
  stack := Vector.replicate 16 0
  dt := 0
  st := 0
  mem := []
  fb := Vector.replicate 64 (Vector.replicate 32 false)
  key := Vector.replicate 16 false
  wait := none
  status := .running
  cfg := c
  randIn := none
  draws := 0

/-- Reset with the spec's default parameters (00_scope.md R9; log 1). -/
def State.reset : State := State.resetWith Config.default

/-- Why a step stops with a fault. -/
inductive Fault where
  /-- Raised by `step`, and by nothing else, in a state whose status is already `faulted r`: the block is halted,
  the step changes nothing and returns the same record (30_encoding.md R113; 60_exceptions.md R256). The error
  that led there was ENTERED by an earlier step as a next state (log 3). Safe: nothing runs after it. -/
  | halted (r : FaultRecord)
deriving DecidableEq, Repr

/-- Why a step has no meaning. -/
inductive Refusal where
  /-- An instruction whose arm has no meaning yet; no arm of this model answers it. Safe. -/
  | notModelled (mnemonic : String)
  /-- Raised by `SKP` and `SKNP` when `V[x]` is above 0xF: 45_input.md R221 and 60_exceptions.md R258 say that
  such a step is refused and changes nothing. Safe: nothing can be proved of the hardware there (log 10). -/
  | keyCodeOutOfRange
deriving DecidableEq, Repr

/-- A step's outcome. -/
abbrev Outcome := Host.Outcome State Fault Refusal

end Sys2Proof.Machine
end

