-- ==== Sys2Proof/Machine/Ops.lean ====
section
/-! DEFINITION. The operations every meaning is written with: memory (spec 20_memory.md), registers
(10_state.md), the endings of a step (30_encoding.md R110 to R112), taking a fatal error (60_exceptions.md R254,
R255), and fetching an instruction. -/

namespace Sys2Proof.Machine

/-! ## Memory as a canonical list -/

/-- The listed byte at `a`, if there is one. -/
def Memory.lookup : Memory → Nat → Option Byte
  | [], _ => none
  | (b, v) :: m, a => if a = b then some v else Memory.lookup m a

/-- The list without an entry at `a`. -/
def Memory.erase : Memory → Nat → Memory
  | [], _ => []
  | (b, v) :: m, a => if a = b then m else (b, v) :: Memory.erase m a

/-- The list with the entry `(a, v)`, in its place in the order. -/
def Memory.insert : Memory → Nat → Byte → Memory
  | [], a, v => [(a, v)]
  | (b, w) :: m, a, v =>
    if a < b then (a, v) :: (b, w) :: m
    else if a = b then (a, v) :: m
    else (b, w) :: Memory.insert m a v

/-- The byte at `a`: the listed one, else the reset contents (10_state.md R42; 20_memory.md R73). -/
def Memory.read (c : Config) (m : Memory) (a : Nat) : Byte :=
  (Memory.lookup m a).getD (c.resetByte a)

/-- Memory with `v` at `a`; writing the reset contents back removes the entry. -/
def Memory.write (c : Config) (m : Memory) (a : Nat) (v : Byte) : Memory :=
  if v = c.resetByte a then Memory.erase m a else Memory.insert m a v

/-- The canonical form, from address `lo` on: addresses strictly rising and below 4096, no entry equal to the
reset contents. -/
def Memory.wfFrom (c : Config) : Nat → Memory → Bool
  | _, [] => true
  | lo, (a, v) :: m =>
    decide (lo ≤ a) && decide (a < memSize) && !decide (v = c.resetByte a) && Memory.wfFrom c (a + 1) m

/-- The canonical form of a memory. -/
def Memory.wf (c : Config) (m : Memory) : Bool := Memory.wfFrom c 0 m

/-! ## Reading and writing memory (20_memory.md R62 to R66) -/

/-- 20_memory.md R62: `0 ≤ e ≤ 0xFFF`. -/
def validAddr (e : Nat) : Bool := decide (e < memSize)

/-- The lowest invalid address among `addr` .. `addr + n - 1`, if any is invalid (20_memory.md R63, R64).
The address is an unbounded natural: nothing wraps (R62). -/
def firstInvalid (addr n : Nat) : Option Nat :=
  ((List.range n).map (addr + ·)).find? (fun e => !validAddr e)

/-- The byte of memory at `a`. -/
def State.byteAt (s : State) (a : Nat) : Byte := Memory.read s.cfg s.mem a

/-- The `n` bytes at `addr`, in ascending order. -/
def State.bytesAt (s : State) (addr n : Nat) : List Byte :=
  (List.range n).map fun k => s.byteAt (addr + k)

/-- One byte of memory written. -/
def State.setByte (s : State) (a : Nat) (v : Byte) : State :=
  { s with mem := Memory.write s.cfg s.mem a v }

/-- The bytes written at `addr`, `addr + 1`, …, with no check. -/
def State.setBytes (s : State) (addr : Nat) : List Byte → State
  | [] => s
  | b :: bs => State.setBytes (s.setByte addr b) (addr + 1) bs

/-- The bytes at `addr` .. `addr + n - 1`, or the lowest invalid address (20_memory.md R63). -/
def State.readBytes (s : State) (addr n : Nat) : Except Nat (List Byte) :=
  match firstInvalid addr n with
  | some e => .error e
  | none => .ok (s.bytesAt addr n)

/-- The bytes written from `addr` on, or the lowest invalid address and nothing written (20_memory.md R64). -/
def State.writeBytes (s : State) (addr : Nat) (bs : List Byte) : Except Nat State :=
  match firstInvalid addr bs.length with
  | some e => .error e
  | none => .ok (s.setBytes addr bs)

/-- The value of a byte list, the first byte most significant (20_memory.md R63, R66). -/
def bigEndian (bs : List Byte) : Nat := bs.foldl (fun acc b => acc * 256 + b.toNat) 0

/-- The `n` bytes of `val`, the most significant first (20_memory.md R64, R66). -/
def bigEndianBytes (n val : Nat) : List Byte :=
  (List.range n).map fun k => BitVec.ofNat 8 (val >>> (8 * (n - 1 - k)))

/-- `MemRead(addr, n)` (20_memory.md R63). -/
def State.memRead (s : State) (addr n : Nat) : Except Nat Nat :=
  (s.readBytes addr n).map bigEndian

/-- `MemWrite(addr, n, v)` (20_memory.md R64). -/
def State.memWrite (s : State) (addr n val : Nat) : Except Nat State :=
  s.writeBytes addr (bigEndianBytes n val)

/-! ## Registers (10_state.md R20 to R28) -/

/-- `V[x]`. -/
def State.getV (s : State) (x : Reg) : Byte := s.v[x]

/-- `V[x] <- b`. -/
def State.setV (s : State) (x : Reg) (b : Byte) : State := { s with v := s.v.set x b }

/-- `I <- w`. -/
def State.setI (s : State) (w : Word) : State := { s with i := w }

/-- `pc <- w`. -/
def State.setPc (s : State) (w : Word) : State := { s with pc := w }

/-- `VF`, the flag register (10_state.md R22). -/
def regF : Reg := 15

/-- The pre-advance `pc <- (PC + 2) mod 65536` (30_encoding.md R111); also what a true skip does once more
(40_control_flow.md R120). -/
def State.advance (s : State) : State := s.setPc (s.pc + 2)

/-- A skip instruction's effect after the pre-advance (40_control_flow.md R120). -/
def State.skipIf (s : State) (b : Bool) : State := if b then s.advance else s

/-! ## The stack (10_state.md R31, R32) -/

/-- The stack with `w` pushed; none when it holds 16 entries. -/
def State.push (s : State) (w : Word) : Option State :=
  if h : s.sp.val < 16 then
    some { s with stack := s.stack.set s.sp.val w, sp := ⟨s.sp.val + 1, by omega⟩ }
  else none

/-- The popped entry and the state after the pop; none when the stack is empty. The entry's store keeps its
value and is no longer part of the stack (log 7). -/
def State.pop (s : State) : Option (Word × State) :=
  if h : 0 < s.sp.val then
    some (s.stack[s.sp.val - 1]'(by have := s.sp.isLt; omega), { s with sp := ⟨s.sp.val - 1, by have := s.sp.isLt; omega⟩ })
  else none

/-! ## The random draw (42_random.md R170) -/

/-- The byte this step draws: the one the host presents, else a free value (log 2). -/
def State.rand (s : State) : Byte := s.randIn.getD (Config.freeRand s.draws)

/-- The draw is used up, so that the next one is a fresh value (log 2). -/
def State.consumeRand (s : State) : State :=
  match s.randIn with
  | some _ => { s with randIn := none }
  | none => { s with draws := s.draws + 1 }

/-! ## How a step ends (30_encoding.md R110, R112) -/

/-- The instruction completed: `wait <- none` (30_encoding.md R110; 10_state.md R40). -/
def done (s : State) : Outcome := .next { s with wait := none }

/-- `LD Vx, K` is still waiting: `wait` holds a snapshot of the latch and `PC` stays at the instruction
(45_input.md R224). `s` is the state at the start of the step. -/
def waiting (s : State) : Outcome := .next { s with wait := some s.key }

/-! ## Taking a fatal error, and no return (60_exceptions.md R250 to R257) -/

/-- TAKING A FATAL ERROR: `s` is the state at the start of the step, so every effect of the failing step is
discarded, `PC` is still the fetch address, and only `status` changes (60_exceptions.md R255; 30_encoding.md R112;
log 3). There is no handler and no return instruction: only `reset` leaves the faulted state (R256). -/
def raise (s : State) (r : FaultRecord) : Outcome := .next { s with status := .faulted r }

/-- The record of an error that the executing instruction `ins` raises (60_exceptions.md R254). Its word is the
encoding of `ins`, which is the word that was fetched (log 4). -/
def recordOf (ins : Instr) (kind : FaultKind) (addr : Option Nat) (s : State) : FaultRecord where
  kind := kind
  pc := s.pc
  word := some (encode ins)
  addr := addr

/-- `raise MemoryFault(e)` by the instruction `ins`. -/
def raiseMemory (ins : Instr) (e : Nat) (s : State) : Outcome :=
  raise s (recordOf ins .memoryFault (some e) s)

/-- `raise StackOverflow(a)` by `CALL` (60_exceptions.md R252). -/
def raiseOverflow (ins : Instr) (s : State) : Outcome :=
  raise s (recordOf ins .stackOverflow none s)

/-- `raise StackUnderflow(a)` by `RET` (60_exceptions.md R252). -/
def raiseUnderflow (ins : Instr) (s : State) : Outcome :=
  raise s (recordOf ins .stackUnderflow none s)

/-- A step of a block that is already faulted: no state changes, and the record is returned again
(30_encoding.md R113). -/
def halted (r : FaultRecord) : Outcome := .fault (.halted r)

/-! ## Fetch and decode (30_encoding.md R110) -/

/-- `w <- MemRead(a, 2)`, or the record of the fetch's `MemoryFault`. -/
def State.fetchWord (s : State) : Except FaultRecord Word :=
  match s.memRead s.pc.toNat 2 with
  | .error e => .error { kind := .memoryFault, pc := s.pc, word := none, addr := some e }
  | .ok w => .ok (BitVec.ofNat 16 w)

/-- `ins <- decode(w)`, or the record of the fetch's `MemoryFault` or of `UnknownInstruction(a, w)`
(60_exceptions.md R253, R257). -/
def State.fetchInstr (s : State) : Except FaultRecord Instr :=
  match s.fetchWord with
  | .error r => .error r
  | .ok w =>
    match decode w with
    | none => .error { kind := .unknownInstruction, pc := s.pc, word := some w, addr := none }
    | some ins => .ok ins

/-- The bytes of the word `w` placed where the next fetch reads, in a block that is running (log 5). -/
def State.placeWord (s : State) (w : Word) : State :=
  { s.setBytes s.pc.toNat ((bytesOfWord w).take (memSize - s.pc.toNat)) with status := .running }

end Sys2Proof.Machine
end

