-- ==== Sys2Proof/Machine/Flags.lean ====
section
/-! DEFINITION. The flag values that instructions write to VF, and the order of the two writes
(spec 41_arithmetic.md R140, R150, R151; 10_state.md R22, R23). Carry and borrow are defined on the unreduced
values. -/

namespace Sys2Proof.Machine

/-- A flag as VF holds it: 1 or 0. -/
def flagByte (b : Bool) : Byte := if b then 1 else 0

/-- Carry of `u + v`: `u + v > 255` (41_arithmetic.md R140). -/
def carry (u v : Byte) : Bool := decide (u.toNat + v.toNat > 255)

/-- NOT borrow of `u - v`: `u ≥ v` (41_arithmetic.md R140). -/
def notBorrow (u v : Byte) : Bool := decide (u.toNat ≥ v.toNat)

/-- The bit a right shift moves out: `src & 1` (41_arithmetic.md R150). -/
def shiftedOutRight (src : Byte) : Bool := src.getLsbD 0

/-- The bit a left shift moves out: `src >> 7` (41_arithmetic.md R151). -/
def shiftedOutLeft (src : Byte) : Bool := src.getLsbD 7

/-- `V[15] <- flag`. -/
def State.setFlag (s : State) (b : Bool) : State := s.setV regF (flagByte b)

/-- The result to `V[x]`, then the flag to VF: with `x = 0xF` the flag wins (10_state.md R23). -/
def State.setResultFlag (s : State) (x : Reg) (res : Byte) (b : Bool) : State :=
  (s.setV x res).setFlag b

end Sys2Proof.Machine
end

