-- ==== Sys2Proof/Machine/Operands.lean ====
section
/-! DEFINITION. The operand forms of the instruction set (spec 30_encoding.md R93; 43_memory_index.md; 41_arithmetic.md
R150): what an instruction reads, as a function of the state at the start of the step. -/

namespace Sys2Proof.Machine

/-- `zext_16(NNN)` (30_encoding.md R93). -/
def zext16 (nnn : Addr12) : Word := nnn.setWidth 16

/-- `V[x]` zero-extended to 16 bits, for the sums with `I` and `NNN`. -/
def State.getV16 (s : State) (x : Reg) : Word := (s.getV x).setWidth 16

/-- The source of `SHR` and `SHL`, chosen by `SHIFT_SOURCE` (41_arithmetic.md R150). -/
def State.shiftSource (s : State) (x y : Reg) : Byte :=
  match s.cfg.shiftSource with
  | .vx => s.getV x
  | .vy => s.getV y

/-- The base address of the memory instructions: `I`, as an unbounded natural (20_memory.md R62). -/
def State.indexAddr (s : State) : Nat := s.i.toNat

/-- `FONT_BASE + 5 * (V[x] & 0xF)` (43_memory_index.md R182). -/
def glyphAddr (b : Byte) : Word := BitVec.ofNat 16 (fontBase + fontGlyphBytes * (b &&& 0xF).toNat)

/-- `V[0]` .. `V[x]` in ascending order, the bytes that `LD [I], Vx` stores (43_memory_index.md R183). -/
def State.regBlock (s : State) (x : Reg) : List Byte := s.v.toList.take (x.val + 1)

/-- `V[0]` .. `V[x]` loaded from the bytes, the others kept (43_memory_index.md R184). -/
def State.loadRegBlock (s : State) (x : Reg) (bs : List Byte) : State :=
  { s with v := Vector.ofFn fun k : Fin 16 => if k ≤ x then bs.getD k.val 0 else s.v[k] }

/-- `I` after `LD [I], Vx` and `LD Vx, [I]`, by `INDEX_AFTER_LDST` (43_memory_index.md R183, R184). -/
def State.indexAfterLdst (s : State) (x : Reg) : State :=
  match s.cfg.indexAfterLdst with
  | .unchanged => s
  | .addXPlus1 => s.setI (BitVec.ofNat 16 (s.i.toNat + x.val + 1))

/-- The hundreds, tens and units digits of a byte (43_memory_index.md R185). -/
def bcdDigits (b : Byte) : List Byte :=
  [BitVec.ofNat 8 (b.toNat / 100), BitVec.ofNat 8 (b.toNat / 10 % 10), BitVec.ofNat 8 (b.toNat % 10)]

/-- The sprite's origin, `(V[x] mod 64, V[y] mod 32)` (44_display.md R202). -/
def State.spriteOrigin (s : State) (x y : Reg) : Nat × Nat :=
  ((s.getV x).toNat % 64, (s.getV y).toNat % 32)

/-- The key code that `SKP` and `SKNP` name; none when `V[x]` is above 0xF (45_input.md R221). -/
def State.keyCode (s : State) (x : Reg) : Option KeyCode :=
  if h : (s.getV x).toNat < 16 then some ⟨(s.getV x).toNat, h⟩ else none

/-- `key[k]`, the source's `is_pressed(code)` (10_state.md R36; D19). -/
def State.isPressed (s : State) (k : KeyCode) : Bool := s.key[k]

/-- The set of keys that qualify for `LD Vx, K`, as a predicate, by `KEY_WAIT_TRIGGER` (45_input.md R224). -/
def State.qualifies (s : State) (k : KeyCode) : Bool :=
  match s.cfg.keyWaitTrigger with
  | .level => s.isPressed k
  | .pressEdge =>
    match s.wait with
    | none => false
    | some snap => s.isPressed k && !snap[k]

/-- `min C`: the lowest qualifying key code, none when no key qualifies (45_input.md R224). -/
def State.qualifyingKey (s : State) : Option KeyCode :=
  (List.finRange 16).find? s.qualifies

end Sys2Proof.Machine
end

