-- ==== Sys2Proof/Machine/Arithmetic.lean ====
section
/-! DEFINITION. Arithmetic and logic on registers (spec 41_arithmetic.md R140 to R152). All operands are read from
the state at the start of the step, before any write (10_state.md R23). -/

namespace Sys2Proof.Machine

/-- `LD Vx, byte`, R141. -/
def execLdByte (x : Reg) (nn : Byte) (s : State) : Outcome := done (s.advance.setV x nn)

/-- `ADD Vx, byte`, R142: no flag. -/
def execAddByte (x : Reg) (nn : Byte) (s : State) : Outcome := done (s.advance.setV x (s.getV x + nn))

/-- `LD Vx, Vy`, R143. -/
def execLdReg (x y : Reg) (s : State) : Outcome := done (s.advance.setV x (s.getV y))

/-- `OR Vx, Vy`, R144: no flag. -/
def execOrReg (x y : Reg) (s : State) : Outcome := done (s.advance.setV x (s.getV x ||| s.getV y))

/-- `AND Vx, Vy`, R145: no flag. -/
def execAndReg (x y : Reg) (s : State) : Outcome := done (s.advance.setV x (s.getV x &&& s.getV y))

/-- `XOR Vx, Vy`, R146: no flag. -/
def execXorReg (x y : Reg) (s : State) : Outcome := done (s.advance.setV x (s.getV x ^^^ s.getV y))

/-- `ADD Vx, Vy`, R147: VF = carry. -/
def execAddReg (x y : Reg) (s : State) : Outcome :=
  done (s.advance.setResultFlag x (s.getV x + s.getV y) (carry (s.getV x) (s.getV y)))

/-- `SUB Vx, Vy`, R148: VF = NOT borrow of `V[x] - V[y]`. -/
def execSub (x y : Reg) (s : State) : Outcome :=
  done (s.advance.setResultFlag x (s.getV x - s.getV y) (notBorrow (s.getV x) (s.getV y)))

/-- `SUBN Vx, Vy`, R149: VF = NOT borrow of `V[y] - V[x]`. -/
def execSubn (x y : Reg) (s : State) : Outcome :=
  done (s.advance.setResultFlag x (s.getV y - s.getV x) (notBorrow (s.getV y) (s.getV x)))

/-- `SHR Vx {, Vy}`, R150: a logical shift, VF = the bit shifted out. -/
def execShr (x y : Reg) (s : State) : Outcome :=
  done (s.advance.setResultFlag x (s.shiftSource x y >>> 1) (shiftedOutRight (s.shiftSource x y)))

/-- `SHL Vx {, Vy}`, R151: VF = the bit shifted out. -/
def execShl (x y : Reg) (s : State) : Outcome :=
  done (s.advance.setResultFlag x (s.shiftSource x y <<< 1) (shiftedOutLeft (s.shiftSource x y)))

end Sys2Proof.Machine
end

