-- ==== Sys2Proof/Machine/ControlFlow.lean ====
section
/-! DEFINITION. Control flow (spec 40_control_flow.md R120 to R128). Every meaning takes the state at the START
of the step, with `PC` at the fetch address `a`; `advance` is the pre-advance of 30_encoding.md R111. -/

namespace Sys2Proof.Machine

/-- `JP addr`, R121. -/
def execJp (nnn : Addr12) (s : State) : Outcome := done (s.setPc (zext16 nnn))

/-- `CALL addr`, R122: the pushed value is the advanced `PC`. -/
def execCall (nnn : Addr12) (s : State) : Outcome :=
  match s.push (s.pc + 2) with
  | none => raiseOverflow (.call nnn) s
  | some t => done (t.setPc (zext16 nnn))

/-- `RET`, R123. -/
def execRet (s : State) : Outcome :=
  match s.pop with
  | none => raiseUnderflow .ret s
  | some (w, t) => done (t.setPc w)

/-- `SE Vx, byte`, R124. -/
def execSeByte (x : Reg) (nn : Byte) (s : State) : Outcome :=
  done (s.advance.skipIf (decide (s.getV x = nn)))

/-- `SNE Vx, byte`, R125. -/
def execSneByte (x : Reg) (nn : Byte) (s : State) : Outcome :=
  done (s.advance.skipIf (decide (s.getV x ≠ nn)))

/-- `SE Vx, Vy`, R126. -/
def execSeReg (x y : Reg) (s : State) : Outcome :=
  done (s.advance.skipIf (decide (s.getV x = s.getV y)))

/-- `SNE Vx, Vy`, R127. -/
def execSneReg (x y : Reg) (s : State) : Outcome :=
  done (s.advance.skipIf (decide (s.getV x ≠ s.getV y)))

/-- `JP V0, addr`, R128. -/
def execJpV0 (nnn : Addr12) (s : State) : Outcome :=
  done (s.setPc (zext16 nnn + s.getV16 0))

end Sys2Proof.Machine
end

