-- ==== Sys2Proof/Machine/Graphics.lean ====
section
/-! DEFINITION. The XOR sprite rasteriser (spec 44_display.md R200 to R204). -/

namespace Sys2Proof.Machine

/-- Every pixel off (R200). -/
def Display.clear : Display := Vector.replicate 64 (Vector.replicate 32 false)

/-- `fb[x][y]` (10_state.md R34). -/
def Display.pixel (fb : Display) (x : Fin 64) (y : Fin 32) : Bool := (fb[x])[y]

/-- `fb[x][y] <- b`. -/
def Display.setPixel (fb : Display) (x : Fin 64) (y : Fin 32) (b : Bool) : Display :=
  fb.set x ((fb[x]).set y b)

/-- The display column of sprite column `c`: `(x0 + c) mod 64` (R202). -/
def spriteX (x0 c : Nat) : Fin 64 := Fin.ofNat 64 (x0 + c)

/-- The display row of sprite row `r`: `(y0 + r) mod 32` (R202). -/
def spriteY (y0 r : Nat) : Fin 32 := Fin.ofNat 32 (y0 + r)

/-- The sprite pixel at column `c` of a row byte: bit 7 is column 0 (R201). -/
def spriteBit (row : Byte) (c : Nat) : Bool := row.getLsbD (7 - c)

/-- One sprite pixel: a 0 changes nothing; a 1 on an on pixel is a collision, and flips the pixel either way
(R203, R204). The pair is the display and `hit`. -/
def drawPixel (px : Fin 64) (py : Fin 32) (bit : Bool) (acc : Display × Bool) : Display × Bool :=
  if bit then
    (Display.setPixel acc.1 px py (!Display.pixel acc.1 px py), acc.2 || Display.pixel acc.1 px py)
  else acc

/-- One row of a sprite, columns 0 to 7. -/
def drawRow (x0 : Nat) (py : Fin 32) (row : Byte) (acc : Display × Bool) : Display × Bool :=
  (List.range 8).foldl (fun acc c => drawPixel (spriteX x0 c) py (spriteBit row c) acc) acc

/-- The rows of a sprite from row number `r` on. -/
def drawRows (x0 y0 : Nat) : Nat → List Byte → Display × Bool → Display × Bool
  | _, [], acc => acc
  | r, row :: rows, acc => drawRows x0 y0 (r + 1) rows (drawRow x0 (spriteY y0 r) row acc)

/-- The whole sprite drawn at `(x0, y0)`: the new display, and whether a collision happened (R203, R204). -/
def drawSprite (x0 y0 : Nat) (rows : List Byte) (fb : Display) : Display × Bool :=
  drawRows x0 y0 0 rows (fb, false)

/-- `fb <- fb'`. -/
def State.setFb (s : State) (fb : Display) : State := { s with fb := fb }

/-- `CLS`, R200. -/
def execCls (s : State) : Outcome := done (s.advance.setFb Display.clear)

/-- `DRW Vx, Vy, nibble`, R204: the sprite bytes are read before any pixel changes, VF is written last. -/
def execDrw (x y : Reg) (n : Nibble) (s : State) : Outcome :=
  match s.readBytes s.indexAddr n.toNat with
  | .error e => raiseMemory (.drw x y n) e s
  | .ok rows =>
    match drawSprite (s.spriteOrigin x y).1 (s.spriteOrigin x y).2 rows s.fb with
    | (fb, hit) => done ((s.advance.setFb fb).setFlag hit)

end Sys2Proof.Machine
end

