-- ==== Sys2Proof/Machine/Input.lean ====
section
/-! DEFINITION. The key instructions (spec 45_input.md R221 to R224). -/

namespace Sys2Proof.Machine

/-- A key code above 0xF: the step is refused and nothing changes (R221; 60_exceptions.md R258; log 10). -/
def refuseKeyCode : Outcome := .refused .keyCodeOutOfRange

/-- `SKP Vx`, R222. -/
def execSkp (x : Reg) (s : State) : Outcome :=
  match s.keyCode x with
  | none => refuseKeyCode
  | some k => done (s.advance.skipIf (s.isPressed k))

/-- `SKNP Vx`, R223. -/
def execSknp (x : Reg) (s : State) : Outcome :=
  match s.keyCode x with
  | none => refuseKeyCode
  | some k => done (s.advance.skipIf (!s.isPressed k))

/-- `LD Vx, K`, R224: with a qualifying key the lowest code is stored and the wait is over; with none the step
keeps `PC` at the instruction and takes a snapshot of the latch. -/
def execLdVxK (x : Reg) (s : State) : Outcome :=
  match s.qualifyingKey with
  | some k => done (s.advance.setV x (BitVec.ofNat 8 k.val))
  | none => waiting s

end Sys2Proof.Machine
end

