-- ==== Sys2Proof/Machine/MemoryIndex.lean ====
section
/-! DEFINITION. Memory and index register (spec 43_memory_index.md R180 to R185). -/

namespace Sys2Proof.Machine

/-- `LD I, addr`, R180. -/
def execLdI (nnn : Addr12) (s : State) : Outcome := done (s.advance.setI (zext16 nnn))

/-- `ADD I, Vx`, R181: modulo 65536, no flag, no fault. -/
def execAddI (x : Reg) (s : State) : Outcome := done (s.advance.setI (s.i + s.getV16 x))

/-- `LD F, Vx`, R182. -/
def execLdF (x : Reg) (s : State) : Outcome := done (s.advance.setI (glyphAddr (s.getV x)))

/-- `LD [I], Vx`, R183: all bytes or none. -/
def execLdMemVx (x : Reg) (s : State) : Outcome :=
  match s.writeBytes s.indexAddr (s.regBlock x) with
  | .error e => raiseMemory (.ldMemVx x) e s
  | .ok t => done (t.advance.indexAfterLdst x)

/-- `LD Vx, [I]`, R184: all registers or none. -/
def execLdVxMem (x : Reg) (s : State) : Outcome :=
  match s.readBytes s.indexAddr (x.val + 1) with
  | .error e => raiseMemory (.ldVxMem x) e s
  | .ok bs => done ((s.advance.loadRegBlock x bs).indexAfterLdst x)

/-- `LD B, Vx`, R185: `I` is unchanged under either `INDEX_AFTER_LDST`. -/
def execLdB (x : Reg) (s : State) : Outcome :=
  match s.writeBytes s.indexAddr (bcdDigits (s.getV x)) with
  | .error e => raiseMemory (.ldB x) e s
  | .ok t => done t.advance

end Sys2Proof.Machine
end

