-- ==== Sys2Proof/Machine/Random.lean ====
section
/-! DEFINITION. Random (spec 42_random.md R170, R171). -/

namespace Sys2Proof.Machine

/-- `RND Vx, byte`, R171: the step's draw ANDed with the mask (log 2). -/
def execRnd (x : Reg) (nn : Byte) (s : State) : Outcome :=
  done (s.consumeRand.advance.setV x (s.rand &&& nn))

end Sys2Proof.Machine
end

