-- ==== Sys2Proof/Machine/Timers.lean ====
section
/-! DEFINITION. The timer instructions (spec 46_timers.md R240 to R242) and the tick (R245). -/

namespace Sys2Proof.Machine

/-- `LD Vx, DT`, R240. -/
def execLdVxDt (x : Reg) (s : State) : Outcome := done (s.advance.setV x s.dt)

/-- `LD DT, Vx`, R241. -/
def execLdDtVx (x : Reg) (s : State) : Outcome := done { s.advance with dt := s.getV x }

/-- `LD ST, Vx`, R242. -/
def execLdStVx (x : Reg) (s : State) : Outcome := done { s.advance with st := s.getV x }

/-- One tick of one timer: minus 1 unless it is 0 (R245). -/
def tickTimer (t : Byte) : Byte := if t = 0 then 0 else t - 1

/-- Both timers in one action, in either run status, and nothing else (R245). -/
def State.tick (s : State) : State := { s with dt := tickTimer s.dt, st := tickTimer s.st }

end Sys2Proof.Machine
end

