-- ==== Sys2Proof/Machine/Step.lean ====
section
/-! DEFINITION. One step (spec 30_encoding.md R110), and the placing of an instruction where the next step
fetches. -/

namespace Sys2Proof.Machine

/-- `step` (30_encoding.md R110, R113): check the status, fetch, decode, and execute. A meaning does the pre-advance
and the clearing of `wait` itself; the draw is in the state (log 2). -/
def step (s : State) : Host.Outcome State Fault Refusal :=
  match s.status with
  | .faulted r => halted r
  | .running =>
    match s.fetchInstr with
    | .error r => raise s r
    | .ok ins => exec ins s

/-- `s` with the instruction whose bits are `w` stored at `PC`, in a block that is running, so that the next step
fetches it (log 5). -/
def State.withFetchWord (s : State) (nbits w : Nat) : State := s.placeWord (tableWord nbits w)

end Sys2Proof.Machine
end

