-- ==== Sys2Proof/Machine/HostActions.lean ====
section
/-! DEFINITION. The host's interface: the closed set of atomic actions and the read-only ports (spec 10_state.md R50,
R51), program load (70_reset_and_hazards.md R301, R302), the memory port (20_memory.md R72), and runs as sequences of
actions (20_memory.md R73; 60_exceptions.md R258). -/

namespace Sys2Proof.Machine

/-- The actions of 10_state.md R50. -/
inductive Action where
  | reset
  | loadProgram (bytes : List Byte)
  | step (rand : Byte)
  | tickTimers
  | setKey (code : KeyCode) (pressed : Bool)
  | readByte (addr : Nat)
  | writeByte (addr : Nat) (v : Byte)
  | readWord (addr : Nat)
deriving DecidableEq, Repr

/-- What an action returns (10_state.md R50; 30_encoding.md R114). -/
inductive Result where
  | ok
  | byte (v : Byte)
  | word (w : Word)
  | programTooLarge
  | fault (r : FaultRecord)
  | refused (why : Refusal)
deriving DecidableEq, Repr

/-- `reset` (70_reset_and_hazards.md R290): initialization, with the parameters kept (R291). The counter of free draws
goes on, so that no draw comes twice (log 2). -/
def State.resetAction (s : State) : State :=
  { State.resetWith s.cfg with draws := s.draws, randIn := s.randIn }

/-- `load_program` (70_reset_and_hazards.md R301, R302). -/
def State.loadProgram (s : State) (bytes : List Byte) : State × Result :=
  if bytes.length > programMax then (s, .programTooLarge)
  else (s.setBytes programBase bytes, .ok)

/-- The outcome of a step as the state it leaves and what it returns (30_encoding.md R112 to R114). `s` is the state
before the step. A next state whose status is `faulted r` is a step that raised the error `r` (log 3). -/
def stepResult (s : State) : Outcome → State × Result
  | .next t =>
    match t.status with
    | .running => ({ t with randIn := s.randIn }, .ok)
    | .faulted r => ({ t with randIn := s.randIn }, .fault r)
  | .fault (.halted r) => (s, .fault r)
  | .refused why => (s, .refused why)

/-- `step(rand)` (30_encoding.md R110): the draw is presented for this step only. -/
def State.stepAction (s : State) (rand : Byte) : State × Result :=
  stepResult s (Machine.step { s with randIn := some rand })

/-- `set_key` (45_input.md R220). -/
def State.setKey (s : State) (code : KeyCode) (pressed : Bool) : State :=
  { s with key := s.key.set code pressed }

/-- A `MemoryFault` of the host's memory port (20_memory.md R72; 60_exceptions.md R254; D35): reported, and entered
unless the block is already faulted, which keeps its first record. -/
def State.portFault (s : State) (e : Nat) : State × Result :=
  let r : FaultRecord := { kind := .memoryFault, pc := s.pc, word := none, addr := some e }
  match s.status with
  | .running => ({ s with status := .faulted r }, .fault r)
  | .faulted _ => (s, .fault r)

/-- `read_byte` (20_memory.md R72). -/
def State.readByteAction (s : State) (addr : Nat) : State × Result :=
  match s.memRead addr 1 with
  | .error e => s.portFault e
  | .ok v => (s, .byte (BitVec.ofNat 8 v))

/-- `read_word` (20_memory.md R72). -/
def State.readWordAction (s : State) (addr : Nat) : State × Result :=
  match s.memRead addr 2 with
  | .error e => s.portFault e
  | .ok v => (s, .word (BitVec.ofNat 16 v))

/-- `write_byte` (20_memory.md R72). -/
def State.writeByteAction (s : State) (addr : Nat) (v : Byte) : State × Result :=
  match s.memWrite addr 1 v.toNat with
  | .error e => s.portFault e
  | .ok t => (t, .ok)

/-- One atomic action: the state it leaves and what it returns. -/
def act (a : Action) (s : State) : State × Result :=
  match a with
  | .reset => (s.resetAction, .ok)
  | .loadProgram bytes => s.loadProgram bytes
  | .step rand => s.stepAction rand
  | .tickTimers => (s.tick, .ok)
  | .setKey code pressed => (s.setKey code pressed, .ok)
  | .readByte addr => s.readByteAction addr
  | .writeByte addr v => s.writeByteAction addr v
  | .readWord addr => s.readWordAction addr

/-! ## Runs: one total order of actions, chosen by the host (10_state.md R50; 20_memory.md R73; 46_timers.md R246) -/

/-- A run so far: the block, and the sticky mark of the first refused step (60_exceptions.md R258; log 9). -/
structure Run where
  state : State
  refused : Option Refusal
deriving DecidableEq, Repr

/-- A run that starts from a state. -/
def Run.start (s : State) : Run := { state := s, refused := none }

/-- One action of a run. The mark stays once it is set. -/
def Run.act (a : Action) (run : Run) : Run where
  state := (Machine.act a run.state).1
  refused :=
    match run.refused, (Machine.act a run.state).2 with
    | some why, _ => some why
    | none, .refused why => some why
    | none, _ => none

/-- The actions of a schedule, in order. -/
def runActions : List Action → Run → Run
  | [], run => run
  | a :: as, run => runActions as (run.act a)

/-- Boot (70_reset_and_hazards.md R300): reset, then the program load. -/
def boot (c : Config) (rom : List Byte) : State := ((State.resetWith c).loadProgram rom).1

/-! ## Ports (10_state.md R51): functions of the state, so reading one changes nothing -/

/-- `display`: the snapshot of the buffer. -/
def State.displayPort (s : State) : Display := s.fb

/-- `sound_timer` (46_timers.md R247). -/
def State.soundTimerPort (s : State) : Byte := s.st

/-- `sound_active`: `ST ≠ 0` (46_timers.md R247). -/
def State.soundActivePort (s : State) : Bool := decide (s.st ≠ 0)

/-- `status`. -/
def State.statusPort (s : State) : Status := s.status

/-- What the `debug` port shows (10_state.md R51; 60_exceptions.md R280). -/
structure DebugView where
  pc : Word
  v : Vector Byte 16
  i : Word
  sp : Fin 17
  /-- `stack[0 .. SP-1]`. -/
  stack : List Word
deriving DecidableEq, Repr

/-- `debug`. -/
def State.debugPort (s : State) : DebugView where
  pc := s.pc
  v := s.v
  i := s.i
  sp := s.sp
  stack := s.stack.toList.take s.sp.val

end Sys2Proof.Machine
end

