-- ==== Sys2Proof/Safety.lean ====
section
/-! DEFINITION. What claims are stated in: a safe state and a safe run (spec 10_state.md R41; 30_encoding.md R114),
a halt point (70_reset_and_hazards.md R308), and the invariant of the block (10_state.md R27; 40_control_flow.md R123). -/

namespace Sys2Proof.Machine

/-- No fatal error has happened (10_state.md R41). -/
def State.safe (s : State) : Prop := s.status = .running

/-- `k` steps from `s`, each answering a next state that is still running (30_encoding.md R114), end in `t`. -/
def safeSteps : Nat → State → State → Prop
  | 0, s, t => s = t
  | k + 1, s, t => ∃ u, step s = .next u ∧ u.safe ∧ safeSteps k u t

/-- The halt point of 70_reset_and_hazards.md R308: running, and the word at `PC` is a `JP` to `PC` itself. -/
def haltPoint (s : State) : Prop :=
  s.status = .running ∧ s.fetchWord = .ok (0x1000 ||| s.pc)

/-- The largest `PC` any rule writes (10_state.md R27). -/
def maxPc : Nat := 0x10FE

/-- The largest return address that `CALL` can push (40_control_flow.md R123). -/
def maxReturn : Nat := 0x1000

/-- The block's invariant: memory in canonical form, `PC` at most the largest value any rule writes (10_state.md R27),
and every entry of the stack an address that `CALL` could push (40_control_flow.md R123). -/
structure State.Inv (s : State) : Prop where
  mem : Memory.wf s.cfg s.mem = true
  pc : s.pc.toNat ≤ maxPc
  stack : ∀ j : Fin 16, j.val < s.sp.val → (s.stack[j]).toNat ≤ maxReturn

end Sys2Proof.Machine
end

