-- ==== Sys2Proof/Certificates/Slice0/Obligations.lean ====
section
/-! DEFINITION. The statements for the provers. Each docstring names the rule of spec/ it formalises. `s` is the state at
the start of the step, with `PC` at the fetch address. A fatal error is a next state that differs from `s` in `status` only
(log 3). -/

open Sys2Proof Sys2Proof.Machine

namespace Sys2Proof

/-- Every word whose bits under `mask` are `pattern` decodes to the instruction that `build` reads from it. -/
def RowDecodes (mask pattern : Word) (build : Word → Instr) : Prop :=
  ∀ w : Word, w &&& mask = pattern → decode w = some (build w)

/-- The general registers an instruction may write: its destination, VF where it writes a flag, `V0` .. `Vx` for the block
load (10_state.md R21, R22). -/
def regsWritten : Instr → List Reg
  | .ldByte x _ | .addByte x _ | .rnd x _ => [x]
  | .ldReg x _ | .orReg x _ | .andReg x _ | .xorReg x _ => [x]
  | .addReg x _ | .sub x _ | .subn x _ | .shr x _ | .shl x _ => [x, 15]
  | .drw _ _ _ => [15]
  | .ldVxDt x | .ldVxK x => [x]
  | .ldVxMem x => (List.finRange 16).filter (· ≤ x)
  | _ => []

namespace Machine

/-- An outcome with its next state changed. -/
def mapNext (f : State → State) : Outcome → Outcome
  | .next t => .next (f t)
  | .fault r => .fault r
  | .refused why => .refused why

/-- Instructions executed one after another, each on the state the one before left. -/
def execAll : List Instr → State → Outcome
  | [], s => .next s
  | ins :: rest, s =>
    match exec ins s with
    | .next t => execAll rest t
    | .fault r => .fault r
    | .refused why => .refused why

/-- A sprite 1-bit lands on the pixel `(px, py)`: bit 7 of a row byte is column 0, the origin is `(V[x] mod 64, V[y] mod 32)`,
and both axes wrap (44_display.md R201, R202). -/
def spriteCovers (s : State) (x y : Reg) (n : Nibble) (px : Fin 64) (py : Fin 32) : Prop :=
  ∃ r c : Nat, r < n.toNat ∧ c < 8 ∧ px.val = ((s.getV x).toNat % 64 + c) % 64 ∧
    py.val = ((s.getV y).toNat % 32 + r) % 32 ∧ (s.byteAt (s.indexAddr + r)).getLsbD (7 - c) = true

/-- The key `k` qualifies for `LD Vx, K` (45_input.md R224). -/
def keyQualifies (s : State) (k : KeyCode) : Prop :=
  (s.cfg.keyWaitTrigger = .level ∧ s.key[k] = true) ∨
  (s.cfg.keyWaitTrigger = .pressEdge ∧ ∃ snap : Latch, s.wait = some snap ∧ s.key[k] = true ∧ snap[k] = false)

end Machine

end Sys2Proof

/-! ## Encoding -/

/-- Words written out from the patterns of 30_encoding.md R97, one a family, decode to their instruction. -/
def Obligations.SampleWordsDecodeToTheirInstruction : Prop :=
  decode 0b0000000011100000 = some .cls ∧
  decode 0b0000000011101110 = some .ret ∧
  decode 0b0010001100000000 = some (.call 0x300) ∧
  decode 0b0011001100010000 = some (.seByte 3 0x10) ∧
  decode 0b1000000100100101 = some (.sub 1 2) ∧
  decode 0b1100001100001111 = some (.rnd 3 0x0F) ∧
  decode 0b1111000101010101 = some (.ldMemVx 1) ∧
  decode 0b1101000000010101 = some (.drw 0 1 5) ∧
  decode 0b1110010110011110 = some (.skp 5) ∧
  decode 0b1111001000010101 = some (.ldDtVx 2) ∧
  decode 0b0000000000000000 = none

/-- 30_encoding.md R95, R97: each of the 34 rows, with its mask and match, decodes to its instruction with the operands in the
fields of R91. -/
def Obligations.EveryTableRowDecodesToItsInstruction : Prop :=
  RowDecodes 0xFFFF 0x00E0 (fun _ => .cls) ∧
  RowDecodes 0xFFFF 0x00EE (fun _ => .ret) ∧
  RowDecodes 0xF000 0x1000 (fun w => .jp (fieldNNN w)) ∧
  RowDecodes 0xF000 0x2000 (fun w => .call (fieldNNN w)) ∧
  RowDecodes 0xF000 0x3000 (fun w => .seByte (fieldX w) (fieldNN w)) ∧
  RowDecodes 0xF000 0x4000 (fun w => .sneByte (fieldX w) (fieldNN w)) ∧
  RowDecodes 0xF00F 0x5000 (fun w => .seReg (fieldX w) (fieldY w)) ∧
  RowDecodes 0xF000 0x6000 (fun w => .ldByte (fieldX w) (fieldNN w)) ∧
  RowDecodes 0xF000 0x7000 (fun w => .addByte (fieldX w) (fieldNN w)) ∧
  RowDecodes 0xF00F 0x8000 (fun w => .ldReg (fieldX w) (fieldY w)) ∧
  RowDecodes 0xF00F 0x8001 (fun w => .orReg (fieldX w) (fieldY w)) ∧
  RowDecodes 0xF00F 0x8002 (fun w => .andReg (fieldX w) (fieldY w)) ∧
  RowDecodes 0xF00F 0x8003 (fun w => .xorReg (fieldX w) (fieldY w)) ∧
  RowDecodes 0xF00F 0x8004 (fun w => .addReg (fieldX w) (fieldY w)) ∧
  RowDecodes 0xF00F 0x8005 (fun w => .sub (fieldX w) (fieldY w)) ∧
  RowDecodes 0xF00F 0x8006 (fun w => .shr (fieldX w) (fieldY w)) ∧
  RowDecodes 0xF00F 0x8007 (fun w => .subn (fieldX w) (fieldY w)) ∧
  RowDecodes 0xF00F 0x800E (fun w => .shl (fieldX w) (fieldY w)) ∧
  RowDecodes 0xF00F 0x9000 (fun w => .sneReg (fieldX w) (fieldY w)) ∧
  RowDecodes 0xF000 0xA000 (fun w => .ldI (fieldNNN w)) ∧
  RowDecodes 0xF000 0xB000 (fun w => .jpV0 (fieldNNN w)) ∧
  RowDecodes 0xF000 0xC000 (fun w => .rnd (fieldX w) (fieldNN w)) ∧
  RowDecodes 0xF000 0xD000 (fun w => .drw (fieldX w) (fieldY w) (fieldN w)) ∧
  RowDecodes 0xF0FF 0xE09E (fun w => .skp (fieldX w)) ∧
  RowDecodes 0xF0FF 0xE0A1 (fun w => .sknp (fieldX w)) ∧
  RowDecodes 0xF0FF 0xF007 (fun w => .ldVxDt (fieldX w)) ∧
  RowDecodes 0xF0FF 0xF00A (fun w => .ldVxK (fieldX w)) ∧
  RowDecodes 0xF0FF 0xF015 (fun w => .ldDtVx (fieldX w)) ∧
  RowDecodes 0xF0FF 0xF018 (fun w => .ldStVx (fieldX w)) ∧
  RowDecodes 0xF0FF 0xF01E (fun w => .addI (fieldX w)) ∧
  RowDecodes 0xF0FF 0xF029 (fun w => .ldF (fieldX w)) ∧
  RowDecodes 0xF0FF 0xF033 (fun w => .ldB (fieldX w)) ∧
  RowDecodes 0xF0FF 0xF055 (fun w => .ldMemVx (fieldX w)) ∧
  RowDecodes 0xF0FF 0xF065 (fun w => .ldVxMem (fieldX w))

/-- Decoding an encoded instruction gives it back, every operand at every value (every `Instr` is well formed, its types
carry the ranges). -/
def Obligations.DecodeOfEncodeIsTheInstruction : Prop :=
  ∀ i : Instr, i.wellFormed = true ∧ decode (encode i) = some i

/-- A word that decodes is the encoding of what it decodes to, so no bit of a known word is dropped (30_encoding.md R95, R96). -/
def Obligations.EncodeOfDecodeIsTheWord : Prop :=
  ∀ (w : Word) (i : Instr), decode w = some i → encode i = w

/-- 30_encoding.md R98: exactly the words of its table are unknown. -/
def Obligations.UnknownWordsAreExactlyTheListedOnes : Prop :=
  ∀ w : Word, decode w = none ↔
    (w >>> 12 = 0x0 ∧ w ≠ 0x00E0 ∧ w ≠ 0x00EE) ∨
    (w >>> 12 = 0x5 ∧ fieldN w ≠ 0) ∨
    (w >>> 12 = 0x8 ∧ fieldN w ∈ ([0x8, 0x9, 0xA, 0xB, 0xC, 0xD, 0xF] : List Nibble)) ∨
    (w >>> 12 = 0x9 ∧ fieldN w ≠ 0) ∨
    (w >>> 12 = 0xE ∧ fieldNN w ∉ ([0x9E, 0xA1] : List Byte)) ∨
    (w >>> 12 = 0xF ∧ fieldNN w ∉ ([0x07, 0x0A, 0x15, 0x18, 0x1E, 0x29, 0x33, 0x55, 0x65] : List Byte))

/-! ## The cycle -/

/-- A step of a running block whose bytes at `PC` decode to `i` is `exec i`. `exec` itself does the pre-advance and clears
`wait` (30_encoding.md R110). -/
def Obligations.StepRunsTheDecodedInstruction : Prop :=
  ∀ (s : State) (w : Word) (i : Instr), s.status = .running → s.fetchWord = .ok w → decode w = some i → step s = exec i s

/-- An instruction placed where the next step fetches is the one that runs (20_memory.md R78; log 5). -/
def Obligations.PlacedWordIsTheInstructionThatRuns : Prop :=
  ∀ (s : State) (i : Instr), Memory.wf s.cfg s.mem = true → s.pc.toNat ≤ 0xFFE →
    step (s.withFetchWord 16 (encode i).toNat) = exec i (s.withFetchWord 16 (encode i).toNat)

/-- 60_exceptions.md R257, 20_memory.md R68, 60_exceptions.md R253: the fetch faults at the lowest invalid address, and a fetched
unknown word raises `UnknownInstruction(a, w)`; either way only `status` changes (log 3). -/
def Obligations.FetchAndDecodeErrorsAreRaisedInOrder : Prop :=
  ∀ s : State, s.status = .running →
    (0xFFF < s.pc.toNat →
      step s = .next { s with status := .faulted { kind := .memoryFault, pc := s.pc, word := none, addr := some s.pc.toNat } }) ∧
    (s.pc.toNat = 0xFFF →
      step s = .next { s with status := .faulted { kind := .memoryFault, pc := s.pc, word := none, addr := some 0x1000 } }) ∧
    (s.pc.toNat < 0xFFF → decode (s.byteAt s.pc.toNat ++ s.byteAt (s.pc.toNat + 1)) = none →
      step s = .next { s with status := .faulted { kind := .unknownInstruction, pc := s.pc, word := some (s.byteAt s.pc.toNat ++ s.byteAt (s.pc.toNat + 1)), addr := none } })

/-- 20_memory.md R66, R68: the fetch reads two bytes at any `PC` up to 0xFFE, odd or even, the lower address more significant. -/
def Obligations.FetchIsBigEndianAtAnyAlignment : Prop :=
  ∀ s : State, s.pc.toNat < 0xFFF → s.fetchWord = .ok (s.byteAt s.pc.toNat ++ s.byteAt (s.pc.toNat + 1))

/-- 30_encoding.md R112, 60_exceptions.md R255: a step that raises a fatal error, wherever it does, commits nothing but `status`,
and the record names the fetch address (log 3). -/
def Obligations.FatalErrorCommitsOnlyStatus : Prop :=
  ∀ (s t : State) (r : FaultRecord), s.status = .running → step s = .next t → t.status = .faulted r →
    t = { s with status := .faulted r } ∧ r.pc = s.pc

/-- 30_encoding.md R113: a step of a faulted block changes no state and returns the same record. -/
def Obligations.FaultedBlockIsInert : Prop :=
  ∀ (s : State) (r : FaultRecord) (rand : Byte), s.status = .faulted r →
    step s = .fault (.halted r) ∧ act (.step rand) s = (s, .fault r)

/-- 60_exceptions.md R251, R252: which instruction can raise which error, and when; every other instruction keeps `status`
(log 3, log 4). -/
def Obligations.EachErrorIsRaisedByItsInstructionsOnly : Prop :=
  ∀ (ins : Instr) (s t : State), exec ins s = .next t → t.status = s.status ∨
    ∃ r, t.status = .faulted r ∧ r.word = some (encode ins) ∧
      ((r.kind = .stackOverflow ∧ s.sp.val = 16 ∧ ∃ nnn, ins = .call nnn) ∨
       (r.kind = .stackUnderflow ∧ s.sp.val = 0 ∧ ins = .ret) ∨
       (r.kind = .memoryFault ∧ r.addr = some (max s.indexAddr 0x1000) ∧
         ((∃ x y n, ins = .drw x y n ∧ 0xFFF < s.indexAddr + n.toNat - 1) ∨
          (∃ x, ins = .ldB x ∧ 0xFFF < s.indexAddr + 2) ∨
          (∃ x, ins = .ldMemVx x ∧ 0xFFF < s.indexAddr + x.val) ∨
          (∃ x, ins = .ldVxMem x ∧ 0xFFF < s.indexAddr + x.val))))

/-- `exec` refuses `SKP` and `SKNP` with `V[x]` above 0xF, and nothing else (45_input.md R221, 60_exceptions.md R258; log 10). That
every other instruction answers a next state, and none a fault, is the model's choice: the fatal errors, which 30_encoding.md R114
returns as `Fault(rec)`, are next states (log 3). -/
def Obligations.OnlyKeySkipsAreEverRefused : Prop :=
  ∀ (ins : Instr) (s : State),
    (∃ t, exec ins s = .next t) ∨
    (exec ins s = .refused .keyCodeOutOfRange ∧
      ∃ x, (ins = .skp x ∨ ins = .sknp x) ∧ 0xF < (s.getV x).toNat)

/-- 60_exceptions.md R258: a refused step changes no state, returns the refusal, and marks the run for good. -/
def Obligations.RefusedStepChangesNothingAndMarksTheRun : Prop :=
  ∀ (s : State) (rand : Byte) (x : Reg) (as : List Action), s.status = .running →
    (s.fetchInstr = .ok (.skp x) ∨ s.fetchInstr = .ok (.sknp x)) → 0xF < (s.getV x).toNat →
    act (.step rand) s = (s, .refused .keyCodeOutOfRange) ∧
    (runActions (.step rand :: as) (Run.start s)).refused = some .keyCodeOutOfRange

/-- 10_state.md R40, 30_encoding.md R110: after a step that raised no error, `wait` is none, or the step was an `LD Vx, K` that is
still waiting: then it holds the latch and `PC` did not move. -/
def Obligations.WaitIsHeldOnlyByAWaitingKeyInstruction : Prop :=
  ∀ s t : State, s.status = .running → step s = .next t → t.status = .running →
    t.wait = none ∨ (t.wait = some s.key ∧ t.pc = s.pc ∧ ∃ x, s.fetchInstr = .ok (.ldVxK x))

/-- 10_state.md R26: `PC` after a step, by its outcome (log 3). -/
def Obligations.PcAfterAStepIsOneOfTheListedValues : Prop :=
  ∀ (s t : State), s.status = .running → step s = .next t →
    (t.status = .running → ∃ ins, s.fetchInstr = .ok ins ∧
      match ins with
      | .jp nnn | .call nnn => t.pc.toNat = nnn.toNat
      | .jpV0 nnn => t.pc.toNat = nnn.toNat + (s.getV 0).toNat
      | .ret => ∃ j : Fin 16, j.val + 1 = s.sp.val ∧ t.pc = s.stack[j]
      | .seByte x nn => t.pc = if s.getV x = nn then s.pc + 4 else s.pc + 2
      | .sneByte x nn => t.pc = if s.getV x = nn then s.pc + 2 else s.pc + 4
      | .seReg x y => t.pc = if s.getV x = s.getV y then s.pc + 4 else s.pc + 2
      | .sneReg x y => t.pc = if s.getV x = s.getV y then s.pc + 2 else s.pc + 4
      | .skp x => ∃ k : KeyCode, k.val = (s.getV x).toNat ∧ t.pc = if s.key[k] then s.pc + 4 else s.pc + 2
      | .sknp x => ∃ k : KeyCode, k.val = (s.getV x).toNat ∧ t.pc = if s.key[k] then s.pc + 2 else s.pc + 4
      | .ldVxK _ => t.pc = if t.wait = none then s.pc + 2 else s.pc
      | _ => t.pc = s.pc + 2) ∧
    (∀ r, t.status = .faulted r → t.pc = s.pc)

/-! ## Control flow -/

/-- 40_control_flow.md R121, R128: `JP addr` and `JP V0, addr`. -/
def Obligations.JumpsSetPc : Prop :=
  RowDecodes 0xF000 0x1000 (fun w => .jp (fieldNNN w)) ∧
  RowDecodes 0xF000 0xB000 (fun w => .jpV0 (fieldNNN w)) ∧
  ∀ (nnn : Addr12) (s : State),
    exec (.jp nnn) s = .next { s with pc := BitVec.ofNat 16 nnn.toNat, wait := none } ∧
    exec (.jpV0 nnn) s = .next { s with pc := BitVec.ofNat 16 (nnn.toNat + (s.getV 0).toNat), wait := none }

/-- `CALL` pushes `a + 2` and jumps (40_control_flow.md R122); with 16 entries it raises `StackOverflow` (60_exceptions.md R252; log 3,
log 4). That the cells above the new `SP` keep their values is the model's (log 7). -/
def Obligations.CallPushesReturnAddressOrOverflows : Prop :=
  RowDecodes 0xF000 0x2000 (fun w => .call (fieldNNN w)) ∧
  ∀ (nnn : Addr12) (s : State),
    (s.sp.val < 16 → ∃ t, exec (.call nnn) s = .next t ∧ t.sp.val = s.sp.val + 1 ∧
      (∀ j : Fin 16, t.stack[j] = if j.val = s.sp.val then s.pc + 2 else s.stack[j]) ∧
      t = { s with sp := t.sp, stack := t.stack, pc := BitVec.ofNat 16 nnn.toNat, wait := none }) ∧
    (s.sp.val = 16 → exec (.call nnn) s =
      .next { s with status := .faulted { kind := .stackOverflow, pc := s.pc, word := some (encode (.call nnn)), addr := none } })

/-- `RET` pops into `PC` (40_control_flow.md R123); on an empty stack it raises `StackUnderflow` (60_exceptions.md R252; log 3, log 4).
That the popped entry's cell, now at index `SP`, keeps its value is the model's (log 7): 10_state.md R31 leaves it open. -/
def Obligations.RetPopsReturnAddressOrUnderflows : Prop :=
  RowDecodes 0xFFFF 0x00EE (fun _ => .ret) ∧
  ∀ s : State,
    (∀ j : Fin 16, s.sp.val = j.val + 1 → ∃ t, exec .ret s = .next t ∧ t.sp.val = j.val ∧ t.pc = s.stack[j] ∧
      t = { s with sp := t.sp, pc := t.pc, wait := none }) ∧
    (s.sp.val = 0 → exec .ret s =
      .next { s with status := .faulted { kind := .stackUnderflow, pc := s.pc, word := some (encode .ret), addr := none } })

/-- 40_control_flow.md R129: nested calls and as many returns come back to the instruction after the first call, with the stack
depth restored, for every depth the stack has room for; one call more raises `StackOverflow` (log 3). -/
def Obligations.NestedCallsReturnAfterTheFirstCall : Prop :=
  ∀ (first : Addr12) (rest : List Addr12) (s : State),
    (s.sp.val + rest.length + 1 ≤ 16 →
      ∃ t, execAll ((first :: rest).map .call ++ List.replicate (rest.length + 1) .ret) s = .next t ∧
        t.pc = s.pc + 2 ∧ t.sp = s.sp ∧ t.v = s.v ∧ t.status = s.status) ∧
    (s.sp.val + rest.length + 1 = 17 →
      ∃ t r, execAll ((first :: rest).map .call) s = .next t ∧ t.sp.val = 16 ∧ t.v = s.v ∧
        t.status = .faulted r ∧ r.kind = .stackOverflow)

/-- 40_control_flow.md R120, R124 to R127: each comparison skip ends at `a + 4` when its condition holds and at `a + 2` otherwise,
and changes nothing else. -/
def Obligations.ComparisonSkipsMoveOnlyPc : Prop :=
  RowDecodes 0xF000 0x3000 (fun w => .seByte (fieldX w) (fieldNN w)) ∧
  RowDecodes 0xF000 0x4000 (fun w => .sneByte (fieldX w) (fieldNN w)) ∧
  RowDecodes 0xF00F 0x5000 (fun w => .seReg (fieldX w) (fieldY w)) ∧
  RowDecodes 0xF00F 0x9000 (fun w => .sneReg (fieldX w) (fieldY w)) ∧
  ∀ (x y : Reg) (nn : Byte) (s : State),
    exec (.seByte x nn) s = .next { s with pc := if s.getV x = nn then s.pc + 4 else s.pc + 2, wait := none } ∧
    exec (.sneByte x nn) s = .next { s with pc := if s.getV x = nn then s.pc + 2 else s.pc + 4, wait := none } ∧
    exec (.seReg x y) s = .next { s with pc := if s.getV x = s.getV y then s.pc + 4 else s.pc + 2, wait := none } ∧
    exec (.sneReg x y) s = .next { s with pc := if s.getV x = s.getV y then s.pc + 2 else s.pc + 4, wait := none }

/-! ## Arithmetic and logic -/

/-- 41_arithmetic.md R141, R143: loads and copies write the destination only. -/
def Obligations.LoadAndCopyWriteTheDestinationOnly : Prop :=
  RowDecodes 0xF000 0x6000 (fun w => .ldByte (fieldX w) (fieldNN w)) ∧
  RowDecodes 0xF00F 0x8000 (fun w => .ldReg (fieldX w) (fieldY w)) ∧
  ∀ (x y : Reg) (nn : Byte) (s : State),
    (∃ t, exec (.ldByte x nn) s = .next t ∧ (∀ z, t.getV z = if z = x then nn else s.getV z) ∧
      t = { s with v := t.v, pc := s.pc + 2, wait := none }) ∧
    (∃ t, exec (.ldReg x y) s = .next t ∧ (∀ z, t.getV z = if z = x then s.getV y else s.getV z) ∧
      t = { s with v := t.v, pc := s.pc + 2, wait := none })

/-- 41_arithmetic.md R142: `ADD Vx, byte` wraps modulo 256 and writes no flag. -/
def Obligations.AddByteWrapsWithoutAFlag : Prop :=
  RowDecodes 0xF000 0x7000 (fun w => .addByte (fieldX w) (fieldNN w)) ∧
  ∀ (x : Reg) (nn : Byte) (s : State), ∃ t, exec (.addByte x nn) s = .next t ∧
    (t.getV x).toNat = ((s.getV x).toNat + nn.toNat) % 256 ∧
    (∀ z, z ≠ x → t.getV z = s.getV z) ∧
    t = { s with v := t.v, pc := s.pc + 2, wait := none }

/-- 41_arithmetic.md R144 to R146: the bitwise operations, bit by bit, with VF unchanged unless it is the destination. -/
def Obligations.BitwiseOperationsWriteNoFlag : Prop :=
  RowDecodes 0xF00F 0x8001 (fun w => .orReg (fieldX w) (fieldY w)) ∧
  RowDecodes 0xF00F 0x8002 (fun w => .andReg (fieldX w) (fieldY w)) ∧
  RowDecodes 0xF00F 0x8003 (fun w => .xorReg (fieldX w) (fieldY w)) ∧
  ∀ (x y : Reg) (s : State),
    (∃ t, exec (.orReg x y) s = .next t ∧
      (∀ k, (t.getV x).getLsbD k = ((s.getV x).getLsbD k || (s.getV y).getLsbD k)) ∧
      (∀ z, z ≠ x → t.getV z = s.getV z) ∧ t = { s with v := t.v, pc := s.pc + 2, wait := none }) ∧
    (∃ t, exec (.andReg x y) s = .next t ∧
      (∀ k, (t.getV x).getLsbD k = ((s.getV x).getLsbD k && (s.getV y).getLsbD k)) ∧
      (∀ z, z ≠ x → t.getV z = s.getV z) ∧ t = { s with v := t.v, pc := s.pc + 2, wait := none }) ∧
    (∃ t, exec (.xorReg x y) s = .next t ∧
      (∀ k, (t.getV x).getLsbD k = ((s.getV x).getLsbD k ^^ (s.getV y).getLsbD k)) ∧
      (∀ z, z ≠ x → t.getV z = s.getV z) ∧ t = { s with v := t.v, pc := s.pc + 2, wait := none })

/-- 41_arithmetic.md R147, 10_state.md R23: `ADD Vx, Vy` writes the sum modulo 256 and then the carry to VF. -/
def Obligations.AddRegWritesSumAndThenCarry : Prop :=
  RowDecodes 0xF00F 0x8004 (fun w => .addReg (fieldX w) (fieldY w)) ∧
  ∀ (x y : Reg) (s : State), ∃ t, exec (.addReg x y) s = .next t ∧
    t.getV 15 = (if (s.getV x).toNat + (s.getV y).toNat > 255 then 1 else 0) ∧
    (x ≠ 15 → (t.getV x).toNat = ((s.getV x).toNat + (s.getV y).toNat) % 256) ∧
    (∀ z, z ≠ x → z ≠ 15 → t.getV z = s.getV z) ∧
    t = { s with v := t.v, pc := s.pc + 2, wait := none }

/-- 41_arithmetic.md R148, R149, 10_state.md R23: `SUB` and `SUBN` write the difference modulo 256 and then NOT borrow to VF. -/
def Obligations.SubtractionsWriteDifferenceAndThenNotBorrow : Prop :=
  RowDecodes 0xF00F 0x8005 (fun w => .sub (fieldX w) (fieldY w)) ∧
  RowDecodes 0xF00F 0x8007 (fun w => .subn (fieldX w) (fieldY w)) ∧
  ∀ (x y : Reg) (s : State),
    (∃ t, exec (.sub x y) s = .next t ∧
      t.getV 15 = (if (s.getV x).toNat ≥ (s.getV y).toNat then 1 else 0) ∧
      (x ≠ 15 → ((t.getV x).toNat : Int) = ((s.getV x).toNat - (s.getV y).toNat : Int) % 256) ∧
      (∀ z, z ≠ x → z ≠ 15 → t.getV z = s.getV z) ∧
      t = { s with v := t.v, pc := s.pc + 2, wait := none }) ∧
    (∃ t, exec (.subn x y) s = .next t ∧
      t.getV 15 = (if (s.getV y).toNat ≥ (s.getV x).toNat then 1 else 0) ∧
      (x ≠ 15 → ((t.getV x).toNat : Int) = ((s.getV y).toNat - (s.getV x).toNat : Int) % 256) ∧
      (∀ z, z ≠ x → z ≠ 15 → t.getV z = s.getV z) ∧
      t = { s with v := t.v, pc := s.pc + 2, wait := none })

/-- 41_arithmetic.md R150, R151, 10_state.md R23: the shifts, for each value of `SHIFT_SOURCE` (`q` is the source register it
selects), with the bit shifted out written to VF last. -/
def Obligations.ShiftsWriteResultAndThenBitShiftedOut : Prop :=
  RowDecodes 0xF00F 0x8006 (fun w => .shr (fieldX w) (fieldY w)) ∧
  RowDecodes 0xF00F 0x800E (fun w => .shl (fieldX w) (fieldY w)) ∧
  ∀ (x y q : Reg) (s : State),
    (s.cfg.shiftSource = .vx ∧ q = x ∨ s.cfg.shiftSource = .vy ∧ q = y) →
    (∃ t, exec (.shr x y) s = .next t ∧
      (t.getV 15).toNat = (s.getV q).toNat % 2 ∧
      (x ≠ 15 → (t.getV x).toNat = (s.getV q).toNat / 2) ∧
      (∀ z, z ≠ x → z ≠ 15 → t.getV z = s.getV z) ∧
      t = { s with v := t.v, pc := s.pc + 2, wait := none }) ∧
    (∃ t, exec (.shl x y) s = .next t ∧
      (t.getV 15).toNat = (s.getV q).toNat / 128 ∧
      (x ≠ 15 → (t.getV x).toNat = (s.getV q).toNat * 2 % 256) ∧
      (∀ z, z ≠ x → z ≠ 15 → t.getV z = s.getV z) ∧
      t = { s with v := t.v, pc := s.pc + 2, wait := none })

/-! ## Random -/

/-- 42_random.md R171, R170: `RND` loads the draw ANDed with the mask, whatever byte `rand` the host presents, and with a free value
where it presents none; no bit outside the mask is ever set. The model's own fields `randIn` and `draws` (log 2) may move. -/
def Obligations.RndLoadsAnyDrawUnderTheMask : Prop :=
  RowDecodes 0xF000 0xC000 (fun w => .rnd (fieldX w) (fieldNN w)) ∧
  ∀ (x : Reg) (nn : Byte) (s : State),
    (∃ t, exec (.rnd x nn) s = .next t ∧ t.getV x &&& ~~~nn = 0 ∧
      (∀ rand, s.randIn = some rand → t.getV x = rand &&& nn) ∧
      (∀ z, z ≠ x → t.getV z = s.getV z) ∧
      t = { s with v := t.v, pc := s.pc + 2, wait := none, randIn := t.randIn, draws := t.draws })

/-- 42_random.md R170: an instruction other than `RND` ignores the draw. -/
def Obligations.OnlyRndReadsTheDraw : Prop :=
  ∀ (ins : Instr) (s : State) (rand : Option Byte) (d : Nat), (∀ x nn, ins ≠ .rnd x nn) →
    exec ins { s with randIn := rand, draws := d } = mapNext (fun t => { t with randIn := rand, draws := d }) (exec ins s)

/-! ## Memory and index register -/

/-- 43_memory_index.md R180 to R182: the instructions that compute an address into `I` and access no memory. -/
def Obligations.IndexInstructionsWriteOnlyI : Prop :=
  RowDecodes 0xF000 0xA000 (fun w => .ldI (fieldNNN w)) ∧
  RowDecodes 0xF0FF 0xF01E (fun w => .addI (fieldX w)) ∧
  RowDecodes 0xF0FF 0xF029 (fun w => .ldF (fieldX w)) ∧
  ∀ (nnn : Addr12) (x : Reg) (s : State),
    (∃ t, exec (.ldI nnn) s = .next t ∧ t.i.toNat = nnn.toNat ∧
      t = { s with i := t.i, pc := s.pc + 2, wait := none }) ∧
    (∃ t, exec (.addI x) s = .next t ∧ t.i.toNat = (s.i.toNat + (s.getV x).toNat) % 65536 ∧
      t = { s with i := t.i, pc := s.pc + 2, wait := none }) ∧
    (∃ t, exec (.ldF x) s = .next t ∧ t.i.toNat = 5 * ((s.getV x).toNat % 16) ∧
      t = { s with i := t.i, pc := s.pc + 2, wait := none })

/-- 43_memory_index.md R183: `LD [I], Vx` stores `V0` .. `Vx` at `I` and no other byte, for each value of `INDEX_AFTER_LDST`; past
0xFFF it raises `MemoryFault` and writes nothing (log 3, log 4). -/
def Obligations.RegisterBlockStoreWritesAllOrNothing : Prop :=
  RowDecodes 0xF0FF 0xF055 (fun w => .ldMemVx (fieldX w)) ∧
  ∀ (x : Reg) (s : State), Memory.wf s.cfg s.mem = true →
    (s.indexAddr + x.val ≤ 0xFFF → ∃ t, exec (.ldMemVx x) s = .next t ∧
      (∀ k : Reg, k ≤ x → t.byteAt (s.indexAddr + k.val) = s.getV k) ∧
      (∀ a, a < s.indexAddr ∨ s.indexAddr + x.val < a → t.byteAt a = s.byteAt a) ∧
      (s.cfg.indexAfterLdst = .unchanged → t.i = s.i) ∧
      (s.cfg.indexAfterLdst = .addXPlus1 → t.i.toNat = (s.i.toNat + x.val + 1) % 65536) ∧
      t = { s with mem := t.mem, i := t.i, pc := s.pc + 2, wait := none }) ∧
    (0xFFF < s.indexAddr + x.val → exec (.ldMemVx x) s =
      .next { s with status := .faulted { kind := .memoryFault, pc := s.pc, word := some (encode (.ldMemVx x)), addr := some (max s.indexAddr 0x1000) } })

/-- 43_memory_index.md R184: `LD Vx, [I]` loads `V0` .. `Vx` from `I` and no other register, for each value of `INDEX_AFTER_LDST`; past
0xFFF it raises `MemoryFault` and loads nothing (log 3, log 4). -/
def Obligations.RegisterBlockLoadReadsAllOrNothing : Prop :=
  RowDecodes 0xF0FF 0xF065 (fun w => .ldVxMem (fieldX w)) ∧
  ∀ (x : Reg) (s : State),
    (s.indexAddr + x.val ≤ 0xFFF → ∃ t, exec (.ldVxMem x) s = .next t ∧
      (∀ k : Reg, t.getV k = if k ≤ x then s.byteAt (s.indexAddr + k.val) else s.getV k) ∧
      (s.cfg.indexAfterLdst = .unchanged → t.i = s.i) ∧
      (s.cfg.indexAfterLdst = .addXPlus1 → t.i.toNat = (s.i.toNat + x.val + 1) % 65536) ∧
      t = { s with v := t.v, i := t.i, pc := s.pc + 2, wait := none }) ∧
    (0xFFF < s.indexAddr + x.val → exec (.ldVxMem x) s =
      .next { s with status := .faulted { kind := .memoryFault, pc := s.pc, word := some (encode (.ldVxMem x)), addr := some (max s.indexAddr 0x1000) } })

/-- 43_memory_index.md R185: `LD B, Vx` stores the three decimal digits, hundreds first, leaves `I` alone under either parameter, and
past 0xFFF raises `MemoryFault` and writes nothing (log 3, log 4). -/
def Obligations.BcdStoreWritesThreeDigits : Prop :=
  RowDecodes 0xF0FF 0xF033 (fun w => .ldB (fieldX w)) ∧
  ∀ (x : Reg) (s : State), Memory.wf s.cfg s.mem = true →
    (s.indexAddr + 2 ≤ 0xFFF → ∃ t, exec (.ldB x) s = .next t ∧
      (t.byteAt s.indexAddr).toNat < 10 ∧ (t.byteAt (s.indexAddr + 1)).toNat < 10 ∧
      (t.byteAt (s.indexAddr + 2)).toNat < 10 ∧
      100 * (t.byteAt s.indexAddr).toNat + 10 * (t.byteAt (s.indexAddr + 1)).toNat + (t.byteAt (s.indexAddr + 2)).toNat =
        (s.getV x).toNat ∧
      (∀ a, a < s.indexAddr ∨ s.indexAddr + 2 < a → t.byteAt a = s.byteAt a) ∧
      t = { s with mem := t.mem, pc := s.pc + 2, wait := none }) ∧
    (0xFFF < s.indexAddr + 2 → exec (.ldB x) s =
      .next { s with status := .faulted { kind := .memoryFault, pc := s.pc, word := some (encode (.ldB x)), addr := some (max s.indexAddr 0x1000) } })

/-- What `LD [I], Vx` stores, `LD Vx, [I]` loads back, at the `I` it was stored at (43_memory_index.md R183, R184). -/
def Obligations.StoredRegisterBlockLoadsBack : Prop :=
  ∀ (x : Reg) (s t : State), Memory.wf s.cfg s.mem = true → s.indexAddr + x.val ≤ 0xFFF → exec (.ldMemVx x) s = .next t →
    ∀ v : Vector Byte 16, ∃ u, exec (.ldVxMem x) { t with v := v, i := s.i } = .next u ∧
      ∀ k : Reg, u.getV k = if k ≤ x then s.getV k else v[k]

/-! ## Display -/

/-- 44_display.md R200: `CLS` turns every pixel off and changes nothing else. -/
def Obligations.ClsTurnsEveryPixelOff : Prop :=
  RowDecodes 0xFFFF 0x00E0 (fun _ => .cls) ∧
  ∀ s : State, ∃ t, exec .cls s = .next t ∧ (∀ px py, Display.pixel t.fb px py = false) ∧
    t = { s with fb := t.fb, pc := s.pc + 2, wait := none }

/-- 44_display.md R201 to R204: `DRW` flips exactly the pixels a sprite 1-bit lands on, VF is 1 exactly when one of them was on, and
nothing else changes; a sprite byte past 0xFFF raises `MemoryFault` and draws nothing (log 3, log 4). -/
def Obligations.DrawFlipsExactlyTheCoveredPixels : Prop :=
  RowDecodes 0xF000 0xD000 (fun w => .drw (fieldX w) (fieldY w) (fieldN w)) ∧
  ∀ (x y : Reg) (n : Nibble) (s : State),
    (n = 0 ∨ s.indexAddr + n.toNat - 1 ≤ 0xFFF → ∃ t, exec (.drw x y n) s = .next t ∧
      (∀ px py, spriteCovers s x y n px py → Display.pixel t.fb px py = !Display.pixel s.fb px py) ∧
      (∀ px py, ¬ spriteCovers s x y n px py → Display.pixel t.fb px py = Display.pixel s.fb px py) ∧
      ((∃ px py, spriteCovers s x y n px py ∧ Display.pixel s.fb px py = true) → t.getV 15 = 1) ∧
      ((∀ px py, spriteCovers s x y n px py → Display.pixel s.fb px py = false) → t.getV 15 = 0) ∧
      (∀ z, z ≠ 15 → t.getV z = s.getV z) ∧
      t = { s with fb := t.fb, v := t.v, pc := s.pc + 2, wait := none }) ∧
    (n ≠ 0 → 0xFFF < s.indexAddr + n.toNat - 1 → exec (.drw x y n) s =
      .next { s with status := .faulted { kind := .memoryFault, pc := s.pc, word := some (encode (.drw x y n)), addr := some (max s.indexAddr 0x1000) } })

/-- The same sprite drawn twice at the same place restores the display, and the second draw reports a collision exactly when
a sprite 1-bit landed on a pixel that was off before the first draw (44_display.md R203, R204; log 17). With `x` or `y` 0xF the
first draw may move the place: then the premise on the coordinates fails. -/
def Obligations.DrawingTwiceRestoresTheDisplay : Prop :=
  ∀ (x y : Reg) (n : Nibble) (s : State), (n = 0 ∨ s.indexAddr + n.toNat - 1 ≤ 0xFFF) →
    ∃ t, exec (.drw x y n) s = .next t ∧ (t.getV x = s.getV x → t.getV y = s.getV y →
      ∃ u, exec (.drw x y n) t = .next u ∧ u.fb = s.fb ∧
        ((∃ px py, spriteCovers s x y n px py ∧ Display.pixel s.fb px py = false) → u.getV 15 = 1) ∧
        ((∀ px py, spriteCovers s x y n px py → Display.pixel s.fb px py = true) → u.getV 15 = 0))

/-! ## Input -/

/-- 45_input.md R221 to R223: with a key code up to 0xF the key skips move only `PC`; above 0xF they are refused. -/
def Obligations.KeySkipsReadTheLatchOrAreRefused : Prop :=
  RowDecodes 0xF0FF 0xE09E (fun w => .skp (fieldX w)) ∧
  RowDecodes 0xF0FF 0xE0A1 (fun w => .sknp (fieldX w)) ∧
  ∀ (x : Reg) (s : State),
    (∀ k : KeyCode, (s.getV x).toNat = k.val →
      exec (.skp x) s = .next { s with pc := if s.key[k] then s.pc + 4 else s.pc + 2, wait := none } ∧
      exec (.sknp x) s = .next { s with pc := if s.key[k] then s.pc + 2 else s.pc + 4, wait := none }) ∧
    (0xF < (s.getV x).toNat →
      exec (.skp x) s = .refused .keyCodeOutOfRange ∧ exec (.sknp x) s = .refused .keyCodeOutOfRange)

/-- 45_input.md R224: `LD Vx, K` stores the lowest qualifying key code, for each value of `KEY_WAIT_TRIGGER`, and with none it waits:
`PC` stays and `wait` holds the latch. -/
def Obligations.KeyWaitStoresLowestQualifyingKeyOrWaits : Prop :=
  RowDecodes 0xF0FF 0xF00A (fun w => .ldVxK (fieldX w)) ∧
  ∀ (x : Reg) (s : State),
    (∀ k : KeyCode, keyQualifies s k → (∀ j : KeyCode, keyQualifies s j → k ≤ j) →
      ∃ t, exec (.ldVxK x) s = .next t ∧ (∀ z, t.getV z = if z = x then BitVec.ofNat 8 k.val else s.getV z) ∧
        t = { s with v := t.v, pc := s.pc + 2, wait := none }) ∧
    ((∀ k : KeyCode, ¬ keyQualifies s k) → exec (.ldVxK x) s = .next { s with wait := some s.key })

/-- 45_input.md R225, under either `KEY_WAIT_TRIGGER`: with all keys up the wait leaves `PC` unchanged over any number of steps, and once
it has executed, a key pressed alone is stored by the next step, which advances `PC`. -/
def Obligations.KeyWaitEndsAtTheFirstPress : Prop :=
  ∀ (x : Reg) (s : State) (draws : List Byte) (code : KeyCode) (rand : Byte),
    s.status = .running → s.fetchInstr = .ok (.ldVxK x) → (∀ k : KeyCode, s.key[k] = false) → draws ≠ [] →
    (runActions (draws.map .step) (Run.start s)).state = { s with wait := some s.key } ∧
    ∃ t, (runActions (draws.map .step ++ [.setKey code true, .step rand]) (Run.start s)).state = t ∧
      t.getV x = BitVec.ofNat 8 code.val ∧ t.pc = s.pc + 2 ∧ t.wait = none ∧ t.status = .running

/-! ## Timers -/

/-- 46_timers.md R240 to R242: the three moves between a register and a timer; a write of `ST` shows at once on `sound_active`. -/
def Obligations.TimerInstructionsMoveTheirByte : Prop :=
  RowDecodes 0xF0FF 0xF007 (fun w => .ldVxDt (fieldX w)) ∧
  RowDecodes 0xF0FF 0xF015 (fun w => .ldDtVx (fieldX w)) ∧
  RowDecodes 0xF0FF 0xF018 (fun w => .ldStVx (fieldX w)) ∧
  ∀ (x : Reg) (s : State),
    (∃ t, exec (.ldVxDt x) s = .next t ∧ (∀ z, t.getV z = if z = x then s.dt else s.getV z) ∧
      t = { s with v := t.v, pc := s.pc + 2, wait := none }) ∧
    exec (.ldDtVx x) s = .next { s with dt := s.getV x, pc := s.pc + 2, wait := none } ∧
    (∃ t, exec (.ldStVx x) s = .next t ∧ t.st = s.getV x ∧ (t.soundActivePort = true ↔ (s.getV x).toNat ≠ 0) ∧
      t = { s with st := t.st, pc := s.pc + 2, wait := none })

/-- 46_timers.md R245, R248: `n` ticks in any state, running, waiting or faulted, take `n` from each timer down to 0 and change nothing
else. -/
def Obligations.TicksCountBothTimersDownToZero : Prop :=
  ∀ (n : Nat) (s : State), ∃ t, (runActions (List.replicate n .tickTimers) (Run.start s)).state = t ∧
    t.dt.toNat = s.dt.toNat - n ∧ t.st.toNat = s.st.toNat - n ∧ t = { s with dt := t.dt, st := t.st }

/-- 10_state.md R30: no instruction reads the sound timer. -/
def Obligations.NoInstructionReadsTheSoundTimer : Prop :=
  ∀ (ins : Instr) (s : State) (b : Byte),
    ((∀ x, ins ≠ .ldStVx x) → exec ins { s with st := b } = mapNext (fun t => { t with st := b }) (exec ins s)) ∧
    ((∃ x, ins = .ldStVx x) → exec ins { s with st := b } = exec ins s)

/-! ## Frames of the whole instruction set -/

/-- 10_state.md R21, R22: a register outside the destination, the flag where one is written, and `V0` .. `Vx` of the block load is left
alone by every instruction; in particular VF by `ADD Vx, byte`, `OR`, `AND`, `XOR` and `ADD I, Vx`. -/
def Obligations.RegistersOutsideTheDestinationAreKept : Prop :=
  ∀ (ins : Instr) (s t : State) (z : Reg), exec ins s = .next t → z ∉ regsWritten ins → t.getV z = s.getV z

/-- 10_state.md R28 to R31, R34, R36, 20_memory.md R61, 60_exceptions.md R252: the store each instruction may write; every other store,
and every byte of memory for an instruction that stores none, is left alone. -/
def Obligations.EachStoreIsWrittenByItsInstructionsOnly : Prop :=
  ∀ (ins : Instr) (s t : State), exec ins s = .next t →
    t.key = s.key ∧ t.cfg = s.cfg ∧
    (ins ≠ .cls → (∀ x y n, ins ≠ .drw x y n) → t.fb = s.fb) ∧
    ((∀ x, ins ≠ .ldB x) → (∀ x, ins ≠ .ldMemVx x) → ∀ a, t.byteAt a = s.byteAt a) ∧
    ((∀ nnn, ins ≠ .call nnn) → ins ≠ .ret → t.sp = s.sp ∧ t.stack = s.stack) ∧
    ((∀ x, ins ≠ .ldDtVx x) → t.dt = s.dt) ∧ ((∀ x, ins ≠ .ldStVx x) → t.st = s.st) ∧
    ((∀ nnn, ins ≠ .ldI nnn) → (∀ x, ins ≠ .addI x) → (∀ x, ins ≠ .ldF x) → (∀ x, ins ≠ .ldMemVx x) →
      (∀ x, ins ≠ .ldVxMem x) → t.i = s.i) ∧
    (s.cfg.indexAfterLdst = .unchanged → (∀ nnn, ins ≠ .ldI nnn) → (∀ x, ins ≠ .addI x) → (∀ x, ins ≠ .ldF x) → t.i = s.i) ∧
    ((∀ x nn, ins ≠ .rnd x nn) → t.randIn = s.randIn ∧ t.draws = s.draws)

/-! ## Invariants -/

/-- The invariant holds right after reset, for every choice of the parameters. -/
def Obligations.ResetSatisfiesTheInvariant : Prop :=
  ∀ c : Config, (State.resetWith c).Inv

/-- 10_state.md R27, 40_control_flow.md R123: every step keeps memory canonical, `PC` at most 0x10FE and every return address at most
0x1000. -/
def Obligations.StepKeepsTheInvariant : Prop :=
  ∀ s t : State, s.Inv → step s = .next t → t.Inv

/-- The invariant holds along every sequence of host actions, steps among them, in any order and with any draws. -/
def Obligations.EveryRunKeepsTheInvariant : Prop :=
  ∀ (as : List Action) (run : Run), run.state.Inv → (runActions as run).state.Inv

/-! ## The host's interface -/

/-- 10_state.md R42, 70_reset_and_hazards.md R290, R291: `reset` leaves every field at the value of R42, whatever the state was, and the
parameters as they were. -/
def Obligations.ResetLeavesTheListedValues : Prop :=
  ∀ s : State, ∃ t, act .reset s = (t, .ok) ∧
    (∀ x, t.getV x = 0) ∧ t.i = 0 ∧ t.pc = 0x200 ∧ t.sp.val = 0 ∧ (∀ j : Fin 16, t.stack[j] = 0) ∧ t.dt = 0 ∧ t.st = 0 ∧
    (∀ (a : Nat) (h : a < 80), t.byteAt a = s.cfg.font[a]) ∧ (∀ a, 80 ≤ a → a < 4096 → t.byteAt a = 0) ∧
    (∀ px py, Display.pixel t.fb px py = false) ∧ (∀ k : KeyCode, t.key[k] = false) ∧ t.wait = none ∧
    t.status = .running ∧ t.cfg = s.cfg

/-- 70_reset_and_hazards.md R303: with no program loaded the first step raises `UnknownInstruction(0x200, 0x0000)` (log 3, log 5). -/
def Obligations.FirstStepWithoutAProgramIsUnknown : Prop :=
  ∀ c : Config, step (State.resetWith c) = .next { State.resetWith c with
    status := .faulted { kind := .unknownInstruction, pc := 0x200, word := some 0x0000, addr := none } }

/-- 70_reset_and_hazards.md R300: boot is a reset and a program load, and the first step then runs the instruction in the
program's first two bytes, with nothing to set up and for every choice of the parameters. -/
def Obligations.BootRunsTheFirstInstructionOfTheProgram : Prop :=
  ∀ (c : Config) (b0 b1 : Byte) (rest : List Byte) (i : Instr), rest.length ≤ 3582 → decode (b0 ++ b1) = some i →
    (boot c (b0 :: b1 :: rest)).status = .running ∧
    step (boot c (b0 :: b1 :: rest)) = exec i (boot c (b0 :: b1 :: rest))

/-- 70_reset_and_hazards.md R301, R302: `load_program` writes its bytes at 0x200 and nothing else; above 3584 bytes it changes nothing. -/
def Obligations.LoadProgramCopiesAllOrNothing : Prop :=
  ∀ (s : State) (bytes : List Byte), Memory.wf s.cfg s.mem = true →
    (bytes.length ≤ 3584 → ∃ t, act (.loadProgram bytes) s = (t, .ok) ∧
      (∀ (k : Nat) (h : k < bytes.length), t.byteAt (0x200 + k) = bytes[k]) ∧
      (∀ a, a < 0x200 ∨ 0x200 + bytes.length ≤ a → t.byteAt a = s.byteAt a) ∧ t = { s with mem := t.mem }) ∧
    (3584 < bytes.length → act (.loadProgram bytes) s = (s, .programTooLarge))

/-- 20_memory.md R65, R72: a byte written through the port reads back at every valid address, every other byte is left alone, and the
read changes no state. -/
def Obligations.PortWriteThenReadReturnsTheByte : Prop :=
  ∀ (s : State) (a : Nat) (v : Byte), Memory.wf s.cfg s.mem = true → a ≤ 0xFFF → ∃ t, act (.writeByte a v) s = (t, .ok) ∧
    act (.readByte a) t = (t, .byte v) ∧ (∀ b, b ≠ a → t.byteAt b = s.byteAt b) ∧ t = { s with mem := t.mem }

/-- 20_memory.md R66, R68, R72: `read_word` is big-endian at every address up to 0xFFE. -/
def Obligations.PortWordReadIsBigEndian : Prop :=
  ∀ (s : State) (a : Nat), a < 0xFFF → act (.readWord a) s = (s, .word (s.byteAt a ++ s.byteAt (a + 1)))

/-- 20_memory.md R72, 60_exceptions.md R254: an out-of-range port access reports `MemoryFault` at the lowest invalid address, enters it
unless the block is already faulted, and changes nothing else. -/
def Obligations.PortAccessOutOfRangeFaults : Prop :=
  ∀ (s : State) (a : Nat) (v : Byte) (act1 : Action) (e : Nat),
    (act1 = .readByte a ∧ 0xFFF < a ∧ e = a ∨ act1 = .writeByte a v ∧ 0xFFF < a ∧ e = a ∨
      act1 = .readWord a ∧ 0xFFF ≤ a ∧ e = max a 0x1000) →
    (s.status = .running → act act1 s =
      ({ s with status := .faulted { kind := .memoryFault, pc := s.pc, word := none, addr := some e } },
        .fault { kind := .memoryFault, pc := s.pc, word := none, addr := some e })) ∧
    (∀ r, s.status = .faulted r →
      act act1 s = (s, .fault { kind := .memoryFault, pc := s.pc, word := none, addr := some e }))

/-- 45_input.md R220: `set_key` sets one flag, changes nothing else and returns no fault, in either run status; no instruction
writes the latch. -/
def Obligations.SetKeySetsOneFlag : Prop :=
  (∀ (s : State) (code k : KeyCode) (b : Bool), ∃ t, act (.setKey code b) s = (t, .ok) ∧
    t.key[k] = (if k = code then b else s.key[k]) ∧ t = { s with key := t.key }) ∧
  (∀ (ins : Instr) (s t : State), exec ins s = .next t → t.key = s.key)

/-- 60_exceptions.md R256: whatever the host does short of `reset`, a faulted block keeps its record, its registers, its stack, its
display and its `PC`. -/
def Obligations.OnlyResetLeavesTheFaultedState : Prop :=
  ∀ (as : List Action) (run : Run) (r : FaultRecord), run.state.status = .faulted r → Action.reset ∉ as →
    ∃ t, (runActions as run).state = t ∧ t.status = .faulted r ∧
      t = { run.state with mem := t.mem, key := t.key, dt := t.dt, st := t.st }

/-- 70_reset_and_hazards.md R308: at a halt point (a running block whose `PC` holds a `JP` to itself) a step changes nothing but to clear a
`wait` that an interrupted key wait left, and the state is a halt point again. -/
def Obligations.HaltPointIsNeverLeft : Prop :=
  ∀ s : State, haltPoint s → step s = .next { s with wait := none } ∧ haltPoint { s with wait := none }
end

