-- ==== Sys2Proof/Laws/Decode.lean ====
section
/-! SUPPORT. The decoder: the rows are disjoint, so a word that matches a row decodes by it (spec 30_encoding.md
R95, R96), and the fields of an assembled word are its parts (R91). -/

namespace Sys2Proof

/-- Two rows that no word matches both: they differ in a bit that both fix. -/
def Row.disjoint (r q : Row) : Bool := (r.pattern &&& q.mask) != (q.pattern &&& r.mask)

/-- The rows of the table are pairwise disjoint by their fixed bits. -/
theorem opcodeTable_pairwise_disjoint : opcodeTable.Pairwise fun r q => r.disjoint q = true := by
  decide

/-- Rows that differ in a bit both fix are matched by no common word. -/
theorem Row.not_matches_of_disjoint {r q : Row} {w : Word} (h : r.disjoint q = true) (hr : r.matches w = true) :
    q.matches w = false := by
  simp only [Row.disjoint, bne_iff_ne, Row.matches, beq_iff_eq, beq_eq_false_iff_ne] at *
  rintro hq
  apply h
  rw [← hr, ← hq]
  ext i hi
  simp only [BitVec.getElem_and]
  cases w[i] <;> cases r.mask[i] <;> cases q.mask[i] <;> rfl

theorem find?_of_pairwise {rows : List Row} (hp : rows.Pairwise fun r q => r.disjoint q = true) {r : Row} {w : Word}
    (hr : r ∈ rows) (hm : r.matches w = true) : ∃ q ∈ rows, rows.find? (·.matches w) = some q ∧ q.build w = r.build w := by
  induction rows with
  | nil => cases hr
  | cons p rows ih =>
    rw [List.pairwise_cons] at hp
    rcases List.mem_cons.mp hr with rfl | hr'
    · exact ⟨r, List.mem_cons_self, by simp [hm], rfl⟩
    · obtain ⟨q, hq, hf, hb⟩ := ih hp.2 hr'
      by_cases hpm : p.matches w = true
      · have := Row.not_matches_of_disjoint (hp.1 r hr') hpm
        rw [hm] at this; cases this
      · exact ⟨q, List.mem_cons_of_mem _ hq, by simp [hpm, hf], hb⟩

/-- A word that matches a row of the table decodes by that row. -/
theorem decode_of_mem {r : Row} {w : Word} (hr : r ∈ opcodeTable) (hm : r.matches w = true) :
    decode w = some (r.build w) := by
  obtain ⟨q, -, hf, hb⟩ := find?_of_pairwise opcodeTable_pairwise_disjoint hr hm
  simp [decode, hf, hb]

/-- A word that decodes matches some row, which gives the instruction. -/
theorem decode_some {w : Word} {i : Instr} (h : decode w = some i) :
    ∃ r ∈ opcodeTable, r.matches w = true ∧ i = r.build w := by
  unfold decode at h
  cases hf : opcodeTable.find? (·.matches w) with
  | none => simp [hf] at h
  | some r =>
    simp only [hf, Option.map_some, Option.some.injEq] at h
    exact ⟨r, List.mem_of_find?_eq_some hf, by simpa using List.find?_some hf, h.symm⟩

/-! ## Fields of assembled words -/

theorem getLsbD_encodeAddr (op : Nibble) (nnn : Addr12) (k : Nat) :
    (encodeAddr op nnn).getLsbD k = if k < 12 then nnn.getLsbD k else op.getLsbD (k - 12) := by
  change (op ++ nnn : BitVec (4 + 12)).getLsbD k = _
  rw [BitVec.getLsbD_append]

theorem getLsbD_encodeXNN (op : Nibble) (x : Reg) (nn : Byte) (k : Nat) :
    (encodeXNN op x nn).getLsbD k =
      if k < 8 then nn.getLsbD k
      else if k < 12 then (BitVec.ofFin x : Nibble).getLsbD (k - 8) else op.getLsbD (k - 12) := by
  change ((op ++ (BitVec.ofFin x : Nibble) : BitVec (4 + 4)) ++ nn : BitVec (4 + 4 + 8)).getLsbD k = _
  rw [BitVec.getLsbD_append, BitVec.getLsbD_append]
  by_cases h8 : k < 8
  · simp [h8]
  · simp only [h8, if_false, show (k - 8 < 4) = (k < 12) from propext (by omega), show k - 8 - 4 = k - 12 by omega]

theorem getLsbD_encodeXYN (op : Nibble) (x y : Reg) (n : Nibble) (k : Nat) :
    (encodeXYN op x y n).getLsbD k =
      if k < 4 then n.getLsbD k
      else if k < 8 then (BitVec.ofFin y : Nibble).getLsbD (k - 4)
      else if k < 12 then (BitVec.ofFin x : Nibble).getLsbD (k - 8) else op.getLsbD (k - 12) := by
  change (((op ++ (BitVec.ofFin x : Nibble) : BitVec (4 + 4)) ++ (BitVec.ofFin y : Nibble) : BitVec (4 + 4 + 4)) ++ n :
    BitVec (4 + 4 + 4 + 4)).getLsbD k = _
  rw [BitVec.getLsbD_append, BitVec.getLsbD_append, BitVec.getLsbD_append]
  by_cases h4 : k < 4
  · simp [h4]
  · by_cases h8 : k < 8
    · simp [h4, h8, show k - 4 < 4 by omega]
    · simp only [h4, h8, if_false, show (k - 4 < 4) = False from eq_false (by omega),
        show k - 4 - 4 = k - 8 by omega, show (k - 8 < 4) = (k < 12) from propext (by omega),
        show k - 8 - 4 = k - 12 by omega]

@[simp] theorem fieldNNN_encodeAddr (op : Nibble) (nnn : Addr12) : fieldNNN (encodeAddr op nnn) = nnn := by
  refine BitVec.eq_of_getLsbD_eq fun k hk => ?_
  simp only [fieldNNN, BitVec.getLsbD_extractLsb', getLsbD_encodeAddr]
  simp [hk]

theorem eq_ofFin_toFin {x : Reg} {b : Nibble} (h : b = BitVec.ofFin x) : (b.toFin : Reg) = x := by rw [h]

@[simp] theorem fieldX_encodeXNN (op : Nibble) (x : Reg) (nn : Byte) : fieldX (encodeXNN op x nn) = x := by
  refine eq_ofFin_toFin (BitVec.eq_of_getLsbD_eq fun k hk => ?_)
  simp only [BitVec.getLsbD_extractLsb', getLsbD_encodeXNN]
  simp [hk, show 8 + k < 12 by omega]

@[simp] theorem fieldNN_encodeXNN (op : Nibble) (x : Reg) (nn : Byte) : fieldNN (encodeXNN op x nn) = nn := by
  refine BitVec.eq_of_getLsbD_eq fun k hk => ?_
  simp only [fieldNN, BitVec.getLsbD_extractLsb', getLsbD_encodeXNN]
  simp [hk]

@[simp] theorem fieldX_encodeXYN (op : Nibble) (x y : Reg) (n : Nibble) : fieldX (encodeXYN op x y n) = x := by
  refine eq_ofFin_toFin (BitVec.eq_of_getLsbD_eq fun k hk => ?_)
  simp only [BitVec.getLsbD_extractLsb', getLsbD_encodeXYN]
  simp [hk, show ¬ 8 + k < 4 by omega, show 8 + k < 12 by omega]

@[simp] theorem fieldY_encodeXYN (op : Nibble) (x y : Reg) (n : Nibble) : fieldY (encodeXYN op x y n) = y := by
  refine eq_ofFin_toFin (BitVec.eq_of_getLsbD_eq fun k hk => ?_)
  simp only [BitVec.getLsbD_extractLsb', getLsbD_encodeXYN]
  simp [hk, show 4 + k < 8 by omega]

@[simp] theorem fieldN_encodeXYN (op : Nibble) (x y : Reg) (n : Nibble) : fieldN (encodeXYN op x y n) = n := by
  refine BitVec.eq_of_getLsbD_eq fun k hk => ?_
  simp only [fieldN, BitVec.getLsbD_extractLsb', getLsbD_encodeXYN]
  simp [hk]

end Sys2Proof
end

