-- ==== Sys2Proof/Laws/State.lean ====
section
/-! SUPPORT. One lemma for each field under each update, so that no later proof unfolds a record update. -/

namespace Sys2Proof.Machine.State

variable (s : State)

/-! ### setV -/

@[simp] theorem setV_v (x : Reg) (b : Byte) : (s.setV x b).v = s.v.set x b := rfl
@[simp] theorem setV_i (x : Reg) (b : Byte) : (s.setV x b).i = s.i := rfl
@[simp] theorem setV_pc (x : Reg) (b : Byte) : (s.setV x b).pc = s.pc := rfl
@[simp] theorem setV_sp (x : Reg) (b : Byte) : (s.setV x b).sp = s.sp := rfl
@[simp] theorem setV_stack (x : Reg) (b : Byte) : (s.setV x b).stack = s.stack := rfl
@[simp] theorem setV_dt (x : Reg) (b : Byte) : (s.setV x b).dt = s.dt := rfl
@[simp] theorem setV_st (x : Reg) (b : Byte) : (s.setV x b).st = s.st := rfl
@[simp] theorem setV_mem (x : Reg) (b : Byte) : (s.setV x b).mem = s.mem := rfl
@[simp] theorem setV_fb (x : Reg) (b : Byte) : (s.setV x b).fb = s.fb := rfl
@[simp] theorem setV_key (x : Reg) (b : Byte) : (s.setV x b).key = s.key := rfl
@[simp] theorem setV_wait (x : Reg) (b : Byte) : (s.setV x b).wait = s.wait := rfl
@[simp] theorem setV_status (x : Reg) (b : Byte) : (s.setV x b).status = s.status := rfl
@[simp] theorem setV_cfg (x : Reg) (b : Byte) : (s.setV x b).cfg = s.cfg := rfl
@[simp] theorem setV_randIn (x : Reg) (b : Byte) : (s.setV x b).randIn = s.randIn := rfl
@[simp] theorem setV_draws (x : Reg) (b : Byte) : (s.setV x b).draws = s.draws := rfl

/-! ### setI -/

@[simp] theorem setI_v (w : Word) : (s.setI w).v = s.v := rfl
@[simp] theorem setI_i (w : Word) : (s.setI w).i = w := rfl
@[simp] theorem setI_pc (w : Word) : (s.setI w).pc = s.pc := rfl
@[simp] theorem setI_sp (w : Word) : (s.setI w).sp = s.sp := rfl
@[simp] theorem setI_stack (w : Word) : (s.setI w).stack = s.stack := rfl
@[simp] theorem setI_dt (w : Word) : (s.setI w).dt = s.dt := rfl
@[simp] theorem setI_st (w : Word) : (s.setI w).st = s.st := rfl
@[simp] theorem setI_mem (w : Word) : (s.setI w).mem = s.mem := rfl
@[simp] theorem setI_fb (w : Word) : (s.setI w).fb = s.fb := rfl
@[simp] theorem setI_key (w : Word) : (s.setI w).key = s.key := rfl
@[simp] theorem setI_wait (w : Word) : (s.setI w).wait = s.wait := rfl
@[simp] theorem setI_status (w : Word) : (s.setI w).status = s.status := rfl
@[simp] theorem setI_cfg (w : Word) : (s.setI w).cfg = s.cfg := rfl
@[simp] theorem setI_randIn (w : Word) : (s.setI w).randIn = s.randIn := rfl
@[simp] theorem setI_draws (w : Word) : (s.setI w).draws = s.draws := rfl

/-! ### setPc -/

@[simp] theorem setPc_v (w : Word) : (s.setPc w).v = s.v := rfl
@[simp] theorem setPc_i (w : Word) : (s.setPc w).i = s.i := rfl
@[simp] theorem setPc_pc (w : Word) : (s.setPc w).pc = w := rfl
@[simp] theorem setPc_sp (w : Word) : (s.setPc w).sp = s.sp := rfl
@[simp] theorem setPc_stack (w : Word) : (s.setPc w).stack = s.stack := rfl
@[simp] theorem setPc_dt (w : Word) : (s.setPc w).dt = s.dt := rfl
@[simp] theorem setPc_st (w : Word) : (s.setPc w).st = s.st := rfl
@[simp] theorem setPc_mem (w : Word) : (s.setPc w).mem = s.mem := rfl
@[simp] theorem setPc_fb (w : Word) : (s.setPc w).fb = s.fb := rfl
@[simp] theorem setPc_key (w : Word) : (s.setPc w).key = s.key := rfl
@[simp] theorem setPc_wait (w : Word) : (s.setPc w).wait = s.wait := rfl
@[simp] theorem setPc_status (w : Word) : (s.setPc w).status = s.status := rfl
@[simp] theorem setPc_cfg (w : Word) : (s.setPc w).cfg = s.cfg := rfl
@[simp] theorem setPc_randIn (w : Word) : (s.setPc w).randIn = s.randIn := rfl
@[simp] theorem setPc_draws (w : Word) : (s.setPc w).draws = s.draws := rfl

/-! ### advance -/

@[simp] theorem advance_v : (s.advance).v = s.v := rfl
@[simp] theorem advance_i : (s.advance).i = s.i := rfl
@[simp] theorem advance_pc : (s.advance).pc = s.pc + 2 := rfl
@[simp] theorem advance_sp : (s.advance).sp = s.sp := rfl
@[simp] theorem advance_stack : (s.advance).stack = s.stack := rfl
@[simp] theorem advance_dt : (s.advance).dt = s.dt := rfl
@[simp] theorem advance_st : (s.advance).st = s.st := rfl
@[simp] theorem advance_mem : (s.advance).mem = s.mem := rfl
@[simp] theorem advance_fb : (s.advance).fb = s.fb := rfl
@[simp] theorem advance_key : (s.advance).key = s.key := rfl
@[simp] theorem advance_wait : (s.advance).wait = s.wait := rfl
@[simp] theorem advance_status : (s.advance).status = s.status := rfl
@[simp] theorem advance_cfg : (s.advance).cfg = s.cfg := rfl
@[simp] theorem advance_randIn : (s.advance).randIn = s.randIn := rfl
@[simp] theorem advance_draws : (s.advance).draws = s.draws := rfl

/-! ### skipIf -/

@[simp] theorem skipIf_v (b : Bool) : (s.skipIf b).v = s.v := by cases b <;> rfl
@[simp] theorem skipIf_i (b : Bool) : (s.skipIf b).i = s.i := by cases b <;> rfl
@[simp] theorem skipIf_pc (b : Bool) : (s.skipIf b).pc = if b then s.pc + 2 else s.pc := by cases b <;> rfl
@[simp] theorem skipIf_sp (b : Bool) : (s.skipIf b).sp = s.sp := by cases b <;> rfl
@[simp] theorem skipIf_stack (b : Bool) : (s.skipIf b).stack = s.stack := by cases b <;> rfl
@[simp] theorem skipIf_dt (b : Bool) : (s.skipIf b).dt = s.dt := by cases b <;> rfl
@[simp] theorem skipIf_st (b : Bool) : (s.skipIf b).st = s.st := by cases b <;> rfl
@[simp] theorem skipIf_mem (b : Bool) : (s.skipIf b).mem = s.mem := by cases b <;> rfl
@[simp] theorem skipIf_fb (b : Bool) : (s.skipIf b).fb = s.fb := by cases b <;> rfl
@[simp] theorem skipIf_key (b : Bool) : (s.skipIf b).key = s.key := by cases b <;> rfl
@[simp] theorem skipIf_wait (b : Bool) : (s.skipIf b).wait = s.wait := by cases b <;> rfl
@[simp] theorem skipIf_status (b : Bool) : (s.skipIf b).status = s.status := by cases b <;> rfl
@[simp] theorem skipIf_cfg (b : Bool) : (s.skipIf b).cfg = s.cfg := by cases b <;> rfl
@[simp] theorem skipIf_randIn (b : Bool) : (s.skipIf b).randIn = s.randIn := by cases b <;> rfl
@[simp] theorem skipIf_draws (b : Bool) : (s.skipIf b).draws = s.draws := by cases b <;> rfl

/-! ### setFb -/

@[simp] theorem setFb_v (fb : Display) : (s.setFb fb).v = s.v := rfl
@[simp] theorem setFb_i (fb : Display) : (s.setFb fb).i = s.i := rfl
@[simp] theorem setFb_pc (fb : Display) : (s.setFb fb).pc = s.pc := rfl
@[simp] theorem setFb_sp (fb : Display) : (s.setFb fb).sp = s.sp := rfl
@[simp] theorem setFb_stack (fb : Display) : (s.setFb fb).stack = s.stack := rfl
@[simp] theorem setFb_dt (fb : Display) : (s.setFb fb).dt = s.dt := rfl
@[simp] theorem setFb_st (fb : Display) : (s.setFb fb).st = s.st := rfl
@[simp] theorem setFb_mem (fb : Display) : (s.setFb fb).mem = s.mem := rfl
@[simp] theorem setFb_fb (fb : Display) : (s.setFb fb).fb = fb := rfl
@[simp] theorem setFb_key (fb : Display) : (s.setFb fb).key = s.key := rfl
@[simp] theorem setFb_wait (fb : Display) : (s.setFb fb).wait = s.wait := rfl
@[simp] theorem setFb_status (fb : Display) : (s.setFb fb).status = s.status := rfl
@[simp] theorem setFb_cfg (fb : Display) : (s.setFb fb).cfg = s.cfg := rfl
@[simp] theorem setFb_randIn (fb : Display) : (s.setFb fb).randIn = s.randIn := rfl
@[simp] theorem setFb_draws (fb : Display) : (s.setFb fb).draws = s.draws := rfl

/-! ### setByte -/

@[simp] theorem setByte_v (a : Nat) (b : Byte) : (s.setByte a b).v = s.v := rfl
@[simp] theorem setByte_i (a : Nat) (b : Byte) : (s.setByte a b).i = s.i := rfl
@[simp] theorem setByte_pc (a : Nat) (b : Byte) : (s.setByte a b).pc = s.pc := rfl
@[simp] theorem setByte_sp (a : Nat) (b : Byte) : (s.setByte a b).sp = s.sp := rfl
@[simp] theorem setByte_stack (a : Nat) (b : Byte) : (s.setByte a b).stack = s.stack := rfl
@[simp] theorem setByte_dt (a : Nat) (b : Byte) : (s.setByte a b).dt = s.dt := rfl
@[simp] theorem setByte_st (a : Nat) (b : Byte) : (s.setByte a b).st = s.st := rfl
@[simp] theorem setByte_mem (a : Nat) (b : Byte) : (s.setByte a b).mem = Memory.write s.cfg s.mem a b := rfl
@[simp] theorem setByte_fb (a : Nat) (b : Byte) : (s.setByte a b).fb = s.fb := rfl
@[simp] theorem setByte_key (a : Nat) (b : Byte) : (s.setByte a b).key = s.key := rfl
@[simp] theorem setByte_wait (a : Nat) (b : Byte) : (s.setByte a b).wait = s.wait := rfl
@[simp] theorem setByte_status (a : Nat) (b : Byte) : (s.setByte a b).status = s.status := rfl
@[simp] theorem setByte_cfg (a : Nat) (b : Byte) : (s.setByte a b).cfg = s.cfg := rfl
@[simp] theorem setByte_randIn (a : Nat) (b : Byte) : (s.setByte a b).randIn = s.randIn := rfl
@[simp] theorem setByte_draws (a : Nat) (b : Byte) : (s.setByte a b).draws = s.draws := rfl

/-! ### setFlag -/

@[simp] theorem setFlag_v (b : Bool) : (s.setFlag b).v = s.v.set regF (flagByte b) := rfl
@[simp] theorem setFlag_i (b : Bool) : (s.setFlag b).i = s.i := rfl
@[simp] theorem setFlag_pc (b : Bool) : (s.setFlag b).pc = s.pc := rfl
@[simp] theorem setFlag_sp (b : Bool) : (s.setFlag b).sp = s.sp := rfl
@[simp] theorem setFlag_stack (b : Bool) : (s.setFlag b).stack = s.stack := rfl
@[simp] theorem setFlag_dt (b : Bool) : (s.setFlag b).dt = s.dt := rfl
@[simp] theorem setFlag_st (b : Bool) : (s.setFlag b).st = s.st := rfl
@[simp] theorem setFlag_mem (b : Bool) : (s.setFlag b).mem = s.mem := rfl
@[simp] theorem setFlag_fb (b : Bool) : (s.setFlag b).fb = s.fb := rfl
@[simp] theorem setFlag_key (b : Bool) : (s.setFlag b).key = s.key := rfl
@[simp] theorem setFlag_wait (b : Bool) : (s.setFlag b).wait = s.wait := rfl
@[simp] theorem setFlag_status (b : Bool) : (s.setFlag b).status = s.status := rfl
@[simp] theorem setFlag_cfg (b : Bool) : (s.setFlag b).cfg = s.cfg := rfl
@[simp] theorem setFlag_randIn (b : Bool) : (s.setFlag b).randIn = s.randIn := rfl
@[simp] theorem setFlag_draws (b : Bool) : (s.setFlag b).draws = s.draws := rfl

/-! ### setResultFlag -/

@[simp] theorem setResultFlag_v (x : Reg) (r : Byte) (b : Bool) : (s.setResultFlag x r b).v = (s.v.set x r).set regF (flagByte b) := rfl
@[simp] theorem setResultFlag_i (x : Reg) (r : Byte) (b : Bool) : (s.setResultFlag x r b).i = s.i := rfl
@[simp] theorem setResultFlag_pc (x : Reg) (r : Byte) (b : Bool) : (s.setResultFlag x r b).pc = s.pc := rfl
@[simp] theorem setResultFlag_sp (x : Reg) (r : Byte) (b : Bool) : (s.setResultFlag x r b).sp = s.sp := rfl
@[simp] theorem setResultFlag_stack (x : Reg) (r : Byte) (b : Bool) : (s.setResultFlag x r b).stack = s.stack := rfl
@[simp] theorem setResultFlag_dt (x : Reg) (r : Byte) (b : Bool) : (s.setResultFlag x r b).dt = s.dt := rfl
@[simp] theorem setResultFlag_st (x : Reg) (r : Byte) (b : Bool) : (s.setResultFlag x r b).st = s.st := rfl
@[simp] theorem setResultFlag_mem (x : Reg) (r : Byte) (b : Bool) : (s.setResultFlag x r b).mem = s.mem := rfl
@[simp] theorem setResultFlag_fb (x : Reg) (r : Byte) (b : Bool) : (s.setResultFlag x r b).fb = s.fb := rfl
@[simp] theorem setResultFlag_key (x : Reg) (r : Byte) (b : Bool) : (s.setResultFlag x r b).key = s.key := rfl
@[simp] theorem setResultFlag_wait (x : Reg) (r : Byte) (b : Bool) : (s.setResultFlag x r b).wait = s.wait := rfl
@[simp] theorem setResultFlag_status (x : Reg) (r : Byte) (b : Bool) : (s.setResultFlag x r b).status = s.status := rfl
@[simp] theorem setResultFlag_cfg (x : Reg) (r : Byte) (b : Bool) : (s.setResultFlag x r b).cfg = s.cfg := rfl
@[simp] theorem setResultFlag_randIn (x : Reg) (r : Byte) (b : Bool) : (s.setResultFlag x r b).randIn = s.randIn := rfl
@[simp] theorem setResultFlag_draws (x : Reg) (r : Byte) (b : Bool) : (s.setResultFlag x r b).draws = s.draws := rfl

/-! ### consumeRand -/

@[simp] theorem consumeRand_v : (s.consumeRand).v = s.v := by unfold State.consumeRand; split <;> simp_all
@[simp] theorem consumeRand_i : (s.consumeRand).i = s.i := by unfold State.consumeRand; split <;> simp_all
@[simp] theorem consumeRand_pc : (s.consumeRand).pc = s.pc := by unfold State.consumeRand; split <;> simp_all
@[simp] theorem consumeRand_sp : (s.consumeRand).sp = s.sp := by unfold State.consumeRand; split <;> simp_all
@[simp] theorem consumeRand_stack : (s.consumeRand).stack = s.stack := by unfold State.consumeRand; split <;> simp_all
@[simp] theorem consumeRand_dt : (s.consumeRand).dt = s.dt := by unfold State.consumeRand; split <;> simp_all
@[simp] theorem consumeRand_st : (s.consumeRand).st = s.st := by unfold State.consumeRand; split <;> simp_all
@[simp] theorem consumeRand_mem : (s.consumeRand).mem = s.mem := by unfold State.consumeRand; split <;> simp_all
@[simp] theorem consumeRand_fb : (s.consumeRand).fb = s.fb := by unfold State.consumeRand; split <;> simp_all
@[simp] theorem consumeRand_key : (s.consumeRand).key = s.key := by unfold State.consumeRand; split <;> simp_all
@[simp] theorem consumeRand_wait : (s.consumeRand).wait = s.wait := by unfold State.consumeRand; split <;> simp_all
@[simp] theorem consumeRand_status : (s.consumeRand).status = s.status := by unfold State.consumeRand; split <;> simp_all
@[simp] theorem consumeRand_cfg : (s.consumeRand).cfg = s.cfg := by unfold State.consumeRand; split <;> simp_all
@[simp] theorem consumeRand_randIn : (s.consumeRand).randIn = none := by unfold State.consumeRand; split <;> simp_all
@[simp] theorem consumeRand_draws : (s.consumeRand).draws = if s.randIn.isSome then s.draws else s.draws + 1 := by unfold State.consumeRand; split <;> simp_all

/-! ### loadRegBlock -/

@[simp] theorem loadRegBlock_v (x : Reg) (bs : List Byte) : (s.loadRegBlock x bs).v = Vector.ofFn fun k : Fin 16 => if k ≤ x then bs.getD k.val 0 else s.v[k] := rfl
@[simp] theorem loadRegBlock_i (x : Reg) (bs : List Byte) : (s.loadRegBlock x bs).i = s.i := rfl
@[simp] theorem loadRegBlock_pc (x : Reg) (bs : List Byte) : (s.loadRegBlock x bs).pc = s.pc := rfl
@[simp] theorem loadRegBlock_sp (x : Reg) (bs : List Byte) : (s.loadRegBlock x bs).sp = s.sp := rfl
@[simp] theorem loadRegBlock_stack (x : Reg) (bs : List Byte) : (s.loadRegBlock x bs).stack = s.stack := rfl
@[simp] theorem loadRegBlock_dt (x : Reg) (bs : List Byte) : (s.loadRegBlock x bs).dt = s.dt := rfl
@[simp] theorem loadRegBlock_st (x : Reg) (bs : List Byte) : (s.loadRegBlock x bs).st = s.st := rfl
@[simp] theorem loadRegBlock_mem (x : Reg) (bs : List Byte) : (s.loadRegBlock x bs).mem = s.mem := rfl
@[simp] theorem loadRegBlock_fb (x : Reg) (bs : List Byte) : (s.loadRegBlock x bs).fb = s.fb := rfl
@[simp] theorem loadRegBlock_key (x : Reg) (bs : List Byte) : (s.loadRegBlock x bs).key = s.key := rfl
@[simp] theorem loadRegBlock_wait (x : Reg) (bs : List Byte) : (s.loadRegBlock x bs).wait = s.wait := rfl
@[simp] theorem loadRegBlock_status (x : Reg) (bs : List Byte) : (s.loadRegBlock x bs).status = s.status := rfl
@[simp] theorem loadRegBlock_cfg (x : Reg) (bs : List Byte) : (s.loadRegBlock x bs).cfg = s.cfg := rfl
@[simp] theorem loadRegBlock_randIn (x : Reg) (bs : List Byte) : (s.loadRegBlock x bs).randIn = s.randIn := rfl
@[simp] theorem loadRegBlock_draws (x : Reg) (bs : List Byte) : (s.loadRegBlock x bs).draws = s.draws := rfl

/-! ### indexAfterLdst -/

@[simp] theorem indexAfterLdst_v (x : Reg) : (s.indexAfterLdst x).v = s.v := by unfold State.indexAfterLdst; split <;> simp_all
@[simp] theorem indexAfterLdst_i (x : Reg) : (s.indexAfterLdst x).i = match s.cfg.indexAfterLdst with
    | .unchanged => s.i
    | .addXPlus1 => BitVec.ofNat 16 (s.i.toNat + x.val + 1) := by unfold State.indexAfterLdst; split <;> simp_all
@[simp] theorem indexAfterLdst_pc (x : Reg) : (s.indexAfterLdst x).pc = s.pc := by unfold State.indexAfterLdst; split <;> simp_all
@[simp] theorem indexAfterLdst_sp (x : Reg) : (s.indexAfterLdst x).sp = s.sp := by unfold State.indexAfterLdst; split <;> simp_all
@[simp] theorem indexAfterLdst_stack (x : Reg) : (s.indexAfterLdst x).stack = s.stack := by unfold State.indexAfterLdst; split <;> simp_all
@[simp] theorem indexAfterLdst_dt (x : Reg) : (s.indexAfterLdst x).dt = s.dt := by unfold State.indexAfterLdst; split <;> simp_all
@[simp] theorem indexAfterLdst_st (x : Reg) : (s.indexAfterLdst x).st = s.st := by unfold State.indexAfterLdst; split <;> simp_all
@[simp] theorem indexAfterLdst_mem (x : Reg) : (s.indexAfterLdst x).mem = s.mem := by unfold State.indexAfterLdst; split <;> simp_all
@[simp] theorem indexAfterLdst_fb (x : Reg) : (s.indexAfterLdst x).fb = s.fb := by unfold State.indexAfterLdst; split <;> simp_all
@[simp] theorem indexAfterLdst_key (x : Reg) : (s.indexAfterLdst x).key = s.key := by unfold State.indexAfterLdst; split <;> simp_all
@[simp] theorem indexAfterLdst_wait (x : Reg) : (s.indexAfterLdst x).wait = s.wait := by unfold State.indexAfterLdst; split <;> simp_all
@[simp] theorem indexAfterLdst_status (x : Reg) : (s.indexAfterLdst x).status = s.status := by unfold State.indexAfterLdst; split <;> simp_all
@[simp] theorem indexAfterLdst_cfg (x : Reg) : (s.indexAfterLdst x).cfg = s.cfg := by unfold State.indexAfterLdst; split <;> simp_all
@[simp] theorem indexAfterLdst_randIn (x : Reg) : (s.indexAfterLdst x).randIn = s.randIn := by unfold State.indexAfterLdst; split <;> simp_all
@[simp] theorem indexAfterLdst_draws (x : Reg) : (s.indexAfterLdst x).draws = s.draws := by unfold State.indexAfterLdst; split <;> simp_all

/-! ### tick -/

@[simp] theorem tick_v : (s.tick).v = s.v := rfl
@[simp] theorem tick_i : (s.tick).i = s.i := rfl
@[simp] theorem tick_pc : (s.tick).pc = s.pc := rfl
@[simp] theorem tick_sp : (s.tick).sp = s.sp := rfl
@[simp] theorem tick_stack : (s.tick).stack = s.stack := rfl
@[simp] theorem tick_dt : (s.tick).dt = tickTimer s.dt := rfl
@[simp] theorem tick_st : (s.tick).st = tickTimer s.st := rfl
@[simp] theorem tick_mem : (s.tick).mem = s.mem := rfl
@[simp] theorem tick_fb : (s.tick).fb = s.fb := rfl
@[simp] theorem tick_key : (s.tick).key = s.key := rfl
@[simp] theorem tick_wait : (s.tick).wait = s.wait := rfl
@[simp] theorem tick_status : (s.tick).status = s.status := rfl
@[simp] theorem tick_cfg : (s.tick).cfg = s.cfg := rfl
@[simp] theorem tick_randIn : (s.tick).randIn = s.randIn := rfl
@[simp] theorem tick_draws : (s.tick).draws = s.draws := rfl

/-! ### setKey -/

@[simp] theorem setKey_v (c : KeyCode) (p : Bool) : (s.setKey c p).v = s.v := rfl
@[simp] theorem setKey_i (c : KeyCode) (p : Bool) : (s.setKey c p).i = s.i := rfl
@[simp] theorem setKey_pc (c : KeyCode) (p : Bool) : (s.setKey c p).pc = s.pc := rfl
@[simp] theorem setKey_sp (c : KeyCode) (p : Bool) : (s.setKey c p).sp = s.sp := rfl
@[simp] theorem setKey_stack (c : KeyCode) (p : Bool) : (s.setKey c p).stack = s.stack := rfl
@[simp] theorem setKey_dt (c : KeyCode) (p : Bool) : (s.setKey c p).dt = s.dt := rfl
@[simp] theorem setKey_st (c : KeyCode) (p : Bool) : (s.setKey c p).st = s.st := rfl
@[simp] theorem setKey_mem (c : KeyCode) (p : Bool) : (s.setKey c p).mem = s.mem := rfl
@[simp] theorem setKey_fb (c : KeyCode) (p : Bool) : (s.setKey c p).fb = s.fb := rfl
@[simp] theorem setKey_key (c : KeyCode) (p : Bool) : (s.setKey c p).key = s.key.set c p := rfl
@[simp] theorem setKey_wait (c : KeyCode) (p : Bool) : (s.setKey c p).wait = s.wait := rfl
@[simp] theorem setKey_status (c : KeyCode) (p : Bool) : (s.setKey c p).status = s.status := rfl
@[simp] theorem setKey_cfg (c : KeyCode) (p : Bool) : (s.setKey c p).cfg = s.cfg := rfl
@[simp] theorem setKey_randIn (c : KeyCode) (p : Bool) : (s.setKey c p).randIn = s.randIn := rfl
@[simp] theorem setKey_draws (c : KeyCode) (p : Bool) : (s.setKey c p).draws = s.draws := rfl

/-! ### setBytes: only memory changes -/

@[simp] theorem setBytes_v (bs : List Byte) (s : State) (a : Nat) : (s.setBytes a bs).v = s.v := by
  induction bs generalizing s a with
  | nil => rfl
  | cons b bs ih => exact (ih _ _).trans rfl

@[simp] theorem setBytes_i (bs : List Byte) (s : State) (a : Nat) : (s.setBytes a bs).i = s.i := by
  induction bs generalizing s a with
  | nil => rfl
  | cons b bs ih => exact (ih _ _).trans rfl

@[simp] theorem setBytes_pc (bs : List Byte) (s : State) (a : Nat) : (s.setBytes a bs).pc = s.pc := by
  induction bs generalizing s a with
  | nil => rfl
  | cons b bs ih => exact (ih _ _).trans rfl

@[simp] theorem setBytes_sp (bs : List Byte) (s : State) (a : Nat) : (s.setBytes a bs).sp = s.sp := by
  induction bs generalizing s a with
  | nil => rfl
  | cons b bs ih => exact (ih _ _).trans rfl

@[simp] theorem setBytes_stack (bs : List Byte) (s : State) (a : Nat) : (s.setBytes a bs).stack = s.stack := by
  induction bs generalizing s a with
  | nil => rfl
  | cons b bs ih => exact (ih _ _).trans rfl

@[simp] theorem setBytes_dt (bs : List Byte) (s : State) (a : Nat) : (s.setBytes a bs).dt = s.dt := by
  induction bs generalizing s a with
  | nil => rfl
  | cons b bs ih => exact (ih _ _).trans rfl

@[simp] theorem setBytes_st (bs : List Byte) (s : State) (a : Nat) : (s.setBytes a bs).st = s.st := by
  induction bs generalizing s a with
  | nil => rfl
  | cons b bs ih => exact (ih _ _).trans rfl

@[simp] theorem setBytes_fb (bs : List Byte) (s : State) (a : Nat) : (s.setBytes a bs).fb = s.fb := by
  induction bs generalizing s a with
  | nil => rfl
  | cons b bs ih => exact (ih _ _).trans rfl

@[simp] theorem setBytes_key (bs : List Byte) (s : State) (a : Nat) : (s.setBytes a bs).key = s.key := by
  induction bs generalizing s a with
  | nil => rfl
  | cons b bs ih => exact (ih _ _).trans rfl

@[simp] theorem setBytes_wait (bs : List Byte) (s : State) (a : Nat) : (s.setBytes a bs).wait = s.wait := by
  induction bs generalizing s a with
  | nil => rfl
  | cons b bs ih => exact (ih _ _).trans rfl

@[simp] theorem setBytes_status (bs : List Byte) (s : State) (a : Nat) : (s.setBytes a bs).status = s.status := by
  induction bs generalizing s a with
  | nil => rfl
  | cons b bs ih => exact (ih _ _).trans rfl

@[simp] theorem setBytes_cfg (bs : List Byte) (s : State) (a : Nat) : (s.setBytes a bs).cfg = s.cfg := by
  induction bs generalizing s a with
  | nil => rfl
  | cons b bs ih => exact (ih _ _).trans rfl

@[simp] theorem setBytes_randIn (bs : List Byte) (s : State) (a : Nat) : (s.setBytes a bs).randIn = s.randIn := by
  induction bs generalizing s a with
  | nil => rfl
  | cons b bs ih => exact (ih _ _).trans rfl

@[simp] theorem setBytes_draws (bs : List Byte) (s : State) (a : Nat) : (s.setBytes a bs).draws = s.draws := by
  induction bs generalizing s a with
  | nil => rfl
  | cons b bs ih => exact (ih _ _).trans rfl

/-! ### Reading a register after a write -/

/-- `V[y]` after a write of `V[x]`. -/
theorem getV_setV (x y : Reg) (b : Byte) : (s.setV x b).getV y = if x = y then b else s.getV y := by
  simp only [getV, setV_v, Fin.getElem_fin, Vector.getElem_set, Fin.ext_iff]

@[simp] theorem getV_setV_self (x : Reg) (b : Byte) : (s.setV x b).getV x = b := by
  simp [getV_setV]

theorem getV_setV_ne (x y : Reg) (b : Byte) (h : x ≠ y) : (s.setV x b).getV y = s.getV y := by
  simp [getV_setV, h]

/-- VF after a flag write holds the flag. -/
@[simp] theorem getV_setResultFlag_flag (x : Reg) (r : Byte) (b : Bool) :
    (s.setResultFlag x r b).getV regF = flagByte b := by
  simp [setResultFlag, setFlag]

/-- Any other register after a result and a flag write. -/
theorem getV_setResultFlag_ne (x y : Reg) (r : Byte) (b : Bool) (h : regF ≠ y) :
    (s.setResultFlag x r b).getV y = if x = y then r else s.getV y := by
  simp only [setResultFlag, setFlag, getV_setV_ne _ _ _ _ h, getV_setV]

@[simp] theorem getV_setI (w : Word) (y : Reg) : (s.setI w).getV y = s.getV y := rfl
@[simp] theorem getV_setPc (w : Word) (y : Reg) : (s.setPc w).getV y = s.getV y := rfl
@[simp] theorem getV_advance (y : Reg) : (s.advance).getV y = s.getV y := rfl
@[simp] theorem getV_skipIf (b : Bool) (y : Reg) : (s.skipIf b).getV y = s.getV y := by simp [getV]
@[simp] theorem getV_setFb (fb : Display) (y : Reg) : (s.setFb fb).getV y = s.getV y := rfl
@[simp] theorem getV_setByte (a : Nat) (b : Byte) (y : Reg) : (s.setByte a b).getV y = s.getV y := rfl
@[simp] theorem getV_consumeRand (y : Reg) : (s.consumeRand).getV y = s.getV y := by simp [getV]
@[simp] theorem getV_indexAfterLdst (x : Reg) (y : Reg) : (s.indexAfterLdst x).getV y = s.getV y := by simp [getV]
@[simp] theorem getV_tick (y : Reg) : (s.tick).getV y = s.getV y := rfl
@[simp] theorem getV_setKey (c : KeyCode) (p : Bool) (y : Reg) : (s.setKey c p).getV y = s.getV y := rfl
@[simp] theorem getV_setBytes (a : Nat) (bs : List Byte) (y : Reg) : (s.setBytes a bs).getV y = s.getV y := by
  simp [getV]

/-- `V[y]` after a block load: loaded up to `x`, kept above. -/
theorem getV_loadRegBlock (x y : Reg) (bs : List Byte) :
    (s.loadRegBlock x bs).getV y = if y ≤ x then bs.getD y.val 0 else s.getV y := by
  simp [getV]

/-! ### The memory read depends on the parameters and the list only -/

@[simp] theorem byteAt_setV (x : Reg) (b : Byte) (a' : Nat) : (s.setV x b).byteAt a' = s.byteAt a' := rfl
@[simp] theorem byteAt_setI (w : Word) (a' : Nat) : (s.setI w).byteAt a' = s.byteAt a' := rfl
@[simp] theorem byteAt_setPc (w : Word) (a' : Nat) : (s.setPc w).byteAt a' = s.byteAt a' := rfl
@[simp] theorem byteAt_advance (a' : Nat) : (s.advance).byteAt a' = s.byteAt a' := rfl
@[simp] theorem byteAt_skipIf (b : Bool) (a' : Nat) : (s.skipIf b).byteAt a' = s.byteAt a' := by simp [byteAt]
@[simp] theorem byteAt_setFb (fb : Display) (a' : Nat) : (s.setFb fb).byteAt a' = s.byteAt a' := rfl
@[simp] theorem byteAt_setFlag (b : Bool) (a' : Nat) : (s.setFlag b).byteAt a' = s.byteAt a' := rfl
@[simp] theorem byteAt_setResultFlag (x : Reg) (r : Byte) (b : Bool) (a' : Nat) : (s.setResultFlag x r b).byteAt a' = s.byteAt a' := rfl
@[simp] theorem byteAt_consumeRand (a' : Nat) : (s.consumeRand).byteAt a' = s.byteAt a' := by simp [byteAt]
@[simp] theorem byteAt_loadRegBlock (x : Reg) (bs : List Byte) (a' : Nat) : (s.loadRegBlock x bs).byteAt a' = s.byteAt a' := rfl
@[simp] theorem byteAt_indexAfterLdst (x : Reg) (a' : Nat) : (s.indexAfterLdst x).byteAt a' = s.byteAt a' := by simp [byteAt]
@[simp] theorem byteAt_tick (a' : Nat) : (s.tick).byteAt a' = s.byteAt a' := rfl
@[simp] theorem byteAt_setKey (c : KeyCode) (p : Bool) (a' : Nat) : (s.setKey c p).byteAt a' = s.byteAt a' := rfl

end Sys2Proof.Machine.State
end

