-- ==== Sys2Proof/Laws/Memory.lean ====
section
/-! SUPPORT. Memory: reads after writes, the canonical form and what keeps it, and one lemma for each checked access
that says everything it can do (spec 20_memory.md R62 to R65). -/

namespace Sys2Proof.Machine

variable {c : Config} {m : Memory} {a b lo : Nat} {v : Byte}

/-! ## The list -/

theorem Memory.wfFrom_cons :
    Memory.wfFrom c lo ((a, v) :: m) = true ↔
      lo ≤ a ∧ a < memSize ∧ v ≠ c.resetByte a ∧ Memory.wfFrom c (a + 1) m = true := by
  simp [Memory.wfFrom, and_assoc]

theorem Memory.wfFrom_mono {lo' : Nat} (h : Memory.wfFrom c lo m = true) (hl : lo' ≤ lo) :
    Memory.wfFrom c lo' m = true := by
  cases m with
  | nil => rfl
  | cons p m =>
    obtain ⟨a, v⟩ := p
    rw [Memory.wfFrom_cons] at h ⊢
    exact ⟨by omega, h.2⟩

theorem Memory.lookup_below (h : Memory.wfFrom c lo m = true) (ha : a < lo) : Memory.lookup m a = none := by
  induction m generalizing lo with
  | nil => rfl
  | cons p m ih =>
    obtain ⟨b, w⟩ := p
    rw [Memory.wfFrom_cons] at h
    simp [Memory.lookup, show a ≠ b by omega, ih h.2.2.2 (by omega)]

theorem Memory.lookup_insert :
    Memory.lookup (Memory.insert m a v) b = if b = a then some v else Memory.lookup m b := by
  induction m with
  | nil => simp [Memory.insert, Memory.lookup]
  | cons p m ih =>
    obtain ⟨d, w⟩ := p
    unfold Memory.insert
    split
    · simp [Memory.lookup]
    · split
      · rename_i h; subst h
        by_cases hb : b = a <;> simp [Memory.lookup, hb]
      · by_cases hb : b = d
        · subst hb; simp [Memory.lookup]; intro h; omega
        · simp [Memory.lookup, hb, ih]

theorem Memory.lookup_erase_ne (h : b ≠ a) : Memory.lookup (Memory.erase m a) b = Memory.lookup m b := by
  induction m with
  | nil => rfl
  | cons p m ih =>
    obtain ⟨d, w⟩ := p
    unfold Memory.erase
    split
    · rename_i hd; subst hd; simp [Memory.lookup, h]
    · simp [Memory.lookup, ih]

theorem Memory.lookup_erase_self (hw : Memory.wfFrom c lo m = true) : Memory.lookup (Memory.erase m a) a = none := by
  induction m generalizing lo with
  | nil => rfl
  | cons p m ih =>
    obtain ⟨d, w⟩ := p
    rw [Memory.wfFrom_cons] at hw
    unfold Memory.erase
    split
    · rename_i hd; subst hd; exact Memory.lookup_below hw.2.2.2 (by omega)
    · rename_i hd; simp [Memory.lookup, hd, ih hw.2.2.2]

theorem Memory.wfFrom_insert (hw : Memory.wfFrom c lo m = true) (hl : lo ≤ a) (ha : a < memSize)
    (hv : v ≠ c.resetByte a) : Memory.wfFrom c lo (Memory.insert m a v) = true := by
  induction m generalizing lo with
  | nil => simp [Memory.insert, hl, ha, hv, Memory.wfFrom]
  | cons p m ih =>
    obtain ⟨d, w⟩ := p
    rw [Memory.wfFrom_cons] at hw
    unfold Memory.insert
    split
    · simp only [Memory.wfFrom_cons]
      exact ⟨hl, ha, hv, by omega, hw.2.1, hw.2.2.1, hw.2.2.2⟩
    · split
      · rename_i hd; subst hd
        simp only [Memory.wfFrom_cons]
        exact ⟨hl, ha, hv, hw.2.2.2⟩
      · simp only [Memory.wfFrom_cons]
        exact ⟨hw.1, hw.2.1, hw.2.2.1, ih hw.2.2.2 (by omega)⟩

theorem Memory.wfFrom_erase (hw : Memory.wfFrom c lo m = true) : Memory.wfFrom c lo (Memory.erase m a) = true := by
  induction m generalizing lo with
  | nil => rfl
  | cons p m ih =>
    obtain ⟨d, w⟩ := p
    rw [Memory.wfFrom_cons] at hw
    unfold Memory.erase
    split
    · exact Memory.wfFrom_mono hw.2.2.2 (by omega)
    · exact Memory.wfFrom_cons.mpr ⟨hw.1, hw.2.1, hw.2.2.1, ih hw.2.2.2⟩

/-! ## Reads and writes -/

/-- A write keeps the canonical form. -/
theorem Memory.wf_write (hw : Memory.wf c m = true) (ha : a < memSize) : Memory.wf c (Memory.write c m a v) = true := by
  unfold Memory.write
  split
  · exact Memory.wfFrom_erase hw
  · rename_i hv; exact Memory.wfFrom_insert hw (by omega) ha hv

/-- A write leaves every other address alone, whatever the form of the list. -/
theorem Memory.read_write_ne (h : b ≠ a) : Memory.read c (Memory.write c m a v) b = Memory.read c m b := by
  unfold Memory.read Memory.write
  split
  · rw [Memory.lookup_erase_ne h]
  · simp [Memory.lookup_insert, h]

/-- A read after a write of the same address gives the value written. -/
theorem Memory.read_write_self (hw : Memory.wf c m = true) : Memory.read c (Memory.write c m a v) a = v := by
  unfold Memory.read Memory.write
  split
  · rename_i hv; simp [Memory.lookup_erase_self hw, hv]
  · simp [Memory.lookup_insert]

/-- Equal memories are equal data: two canonical lists that read alike are the same list. -/
theorem Memory.wfFrom_ext {m' : Memory} (hw : Memory.wfFrom c lo m = true) (hw' : Memory.wfFrom c lo m' = true)
    (h : ∀ a, Memory.read c m a = Memory.read c m' a) : m = m' := by
  induction m generalizing lo m' with
  | nil =>
    cases m' with
    | nil => rfl
    | cons p m' =>
      obtain ⟨d, w⟩ := p
      rw [Memory.wfFrom_cons] at hw'
      have := h d
      simp [Memory.read, Memory.lookup] at this
      exact absurd this.symm hw'.2.2.1
  | cons p m ih =>
    obtain ⟨a, v⟩ := p
    rw [Memory.wfFrom_cons] at hw
    cases m' with
    | nil =>
      have := h a
      simp [Memory.read, Memory.lookup] at this
      exact absurd this hw.2.2.1
    | cons p' m' =>
      obtain ⟨d, w⟩ := p'
      rw [Memory.wfFrom_cons] at hw'
      have hda : a = d := by
        rcases Nat.lt_trichotomy a d with hlt | heq | hgt
        · have := h a
          simp [Memory.read, Memory.lookup, show a ≠ d by omega, Memory.lookup_below hw'.2.2.2 (show a < d + 1 by omega)] at this
          exact absurd this hw.2.2.1
        · exact heq
        · have := h d
          simp [Memory.read, Memory.lookup, show d ≠ a by omega, Memory.lookup_below hw.2.2.2 (show d < a + 1 by omega)] at this
          exact absurd this.symm hw'.2.2.1
      subst hda
      have hv := h a
      simp [Memory.read, Memory.lookup] at hv
      subst hv
      congr 1
      refine ih hw.2.2.2 hw'.2.2.2 fun b => ?_
      have hb := h b
      by_cases hab : b = a
      · subst hab
        simp [Memory.read, Memory.lookup_below hw.2.2.2 (show b < b + 1 by omega),
          Memory.lookup_below hw'.2.2.2 (show b < b + 1 by omega)]
      · simpa [Memory.read, Memory.lookup, hab] using hb

/-! ## Ranges (R62 to R64) -/

/-- The first invalid address: none when the range is empty or ends below 0x1000, else `max addr 0x1000`. -/
theorem firstInvalid_eq (addr n : Nat) :
    firstInvalid addr n = if n = 0 ∨ addr + n ≤ memSize then none else some (max addr memSize) := by
  unfold firstInvalid
  split
  · rename_i h
    simp only [List.find?_eq_none, List.mem_map, List.mem_range, validAddr]
    rintro e ⟨k, hk, rfl⟩
    simp; omega
  · rename_i h
    obtain ⟨h0, h1⟩ := not_or.mp h
    have hsplit : (List.range n).map (addr + ·) =
        (List.range (max addr memSize - addr)).map (addr + ·) ++
          (max addr memSize) :: ((List.range (n - 1 - (max addr memSize - addr))).map (max addr memSize + 1 + ·)) := by
      apply List.ext_getElem
      · simp; omega
      · intro k h2 h3
        simp only [List.getElem_map, List.getElem_range, List.getElem_append, List.length_map, List.length_range]
        split
        · rfl
        · rename_i h4
          rcases Nat.eq_or_lt_of_le (not_lt.mp h4) with h5 | h5
          · simp [← h5]
          · obtain ⟨j, hj⟩ : ∃ j, k = (max addr memSize - addr) + (j + 1) := ⟨k - (max addr memSize - addr) - 1, by omega⟩
            subst hj
            simp; omega
    rw [hsplit, List.find?_append, List.find?_eq_none.mpr, Option.none_or, List.find?_cons]
    · simp [validAddr]
    · simp only [List.mem_map, List.mem_range, validAddr]
      rintro e ⟨k, hk, rfl⟩
      simp; omega

namespace State

variable {s t : State} {addr n e : Nat} {bs : List Byte}

@[simp] theorem length_bytesAt : (s.bytesAt addr n).length = n := by simp [bytesAt]

/-- A checked read answers the bytes, and only when the whole range is valid. -/
theorem readBytes_ok (h : s.readBytes addr n = .ok bs) : bs = s.bytesAt addr n ∧ (n = 0 ∨ addr + n ≤ memSize) := by
  unfold readBytes at h
  rw [firstInvalid_eq] at h
  split_ifs at h with hc
  exact ⟨by simpa using h.symm, hc⟩

/-- A checked read in a valid range. -/
theorem readBytes_valid (h : n = 0 ∨ addr + n ≤ memSize) : s.readBytes addr n = .ok (s.bytesAt addr n) := by
  simp [readBytes, firstInvalid_eq, h]

/-- A checked read outside reports the lowest invalid address. -/
theorem readBytes_invalid (h0 : 0 < n) (h : memSize < addr + n) : s.readBytes addr n = .error (max addr memSize) := by
  have : ¬ (n = 0 ∨ addr + n ≤ memSize) := by omega
  simp [readBytes, firstInvalid_eq, this]

/-- A checked write answers the written state, and only when the whole range is valid. -/
theorem writeBytes_ok (h : s.writeBytes addr bs = .ok t) :
    t = s.setBytes addr bs ∧ (bs.length = 0 ∨ addr + bs.length ≤ memSize) := by
  unfold writeBytes at h
  rw [firstInvalid_eq] at h
  split_ifs at h with hc
  exact ⟨by simpa using h.symm, hc⟩

/-- A checked write in a valid range. -/
theorem writeBytes_valid (h : bs.length = 0 ∨ addr + bs.length ≤ memSize) :
    s.writeBytes addr bs = .ok (s.setBytes addr bs) := by
  unfold writeBytes
  rw [firstInvalid_eq, if_pos h]

/-- A checked write outside reports the lowest invalid address, and nothing is written. -/
theorem writeBytes_invalid (h0 : 0 < bs.length) (h : memSize < addr + bs.length) :
    s.writeBytes addr bs = .error (max addr memSize) := by
  unfold writeBytes
  rw [firstInvalid_eq, if_neg (by omega)]

/-- Every byte write inside memory keeps the canonical form. -/
theorem wf_setBytes (hw : Memory.wf s.cfg s.mem = true) (h : addr + bs.length ≤ memSize) :
    Memory.wf s.cfg (s.setBytes addr bs).mem = true := by
  induction bs generalizing s addr with
  | nil => exact hw
  | cons b bs ih =>
    simp only [List.length_cons] at h
    exact ih (s := s.setByte addr b) (Memory.wf_write hw (by omega)) (by omega)

/-- A byte write leaves every address outside its range alone. -/
theorem byteAt_setBytes_outside {a : Nat} (h : a < addr ∨ addr + bs.length ≤ a) :
    (s.setBytes addr bs).byteAt a = s.byteAt a := by
  induction bs generalizing s addr with
  | nil => rfl
  | cons b bs ih =>
    simp only [List.length_cons] at h
    refine (ih (s := s.setByte addr b) (by omega)).trans ?_
    exact Memory.read_write_ne (by omega)

/-- Byte `k` of a write reads back. -/
theorem byteAt_setBytes_inside (hw : Memory.wf s.cfg s.mem = true) (hr : addr + bs.length ≤ memSize) {k : Nat}
    (hk : k < bs.length) : (s.setBytes addr bs).byteAt (addr + k) = bs[k] := by
  induction bs generalizing s addr k with
  | nil => simp at hk
  | cons b bs ih =>
    simp only [List.length_cons] at hr hk
    have hw' : Memory.wf (s.setByte addr b).cfg (s.setByte addr b).mem = true := Memory.wf_write hw (by omega)
    cases k with
    | zero =>
      refine (byteAt_setBytes_outside (s := s.setByte addr b) (by omega)).trans ?_
      exact Memory.read_write_self hw
    | succ k =>
      have := ih (s := s.setByte addr b) (addr := addr + 1) (k := k) hw' (by omega) (by omega)
      simpa [setBytes, Nat.add_assoc, Nat.add_comm 1 k] using this

end State

end Sys2Proof.Machine
end

