-- ==== Sys2Proof/Laws/Ops.lean ====
section
/-! SUPPORT. What the shared operations can do, each said once: the endings of a step, the stack, the key operands, the
fetch, and the two ways a step goes (spec 30_encoding.md R110 to R113). -/

namespace Sys2Proof.Machine

variable {s t : State}

/-! ## Endings -/

@[simp] theorem done_eq (s : State) : done s = .next { s with wait := none } := rfl

@[simp] theorem waiting_eq (s : State) : waiting s = .next { s with wait := some s.key } := rfl

@[simp] theorem raise_eq (s : State) (r : FaultRecord) : raise s r = .next { s with status := .faulted r } := rfl

@[simp] theorem raiseMemory_eq (ins : Instr) (e : Nat) (s : State) : raiseMemory ins e s =
    .next { s with status := .faulted { kind := .memoryFault, pc := s.pc, word := some (encode ins), addr := some e } } := rfl

@[simp] theorem raiseOverflow_eq (ins : Instr) (s : State) : raiseOverflow ins s =
    .next { s with status := .faulted { kind := .stackOverflow, pc := s.pc, word := some (encode ins), addr := none } } := rfl

@[simp] theorem raiseUnderflow_eq (ins : Instr) (s : State) : raiseUnderflow ins s =
    .next { s with status := .faulted { kind := .stackUnderflow, pc := s.pc, word := some (encode ins), addr := none } } := rfl

/-! ## The stack -/

/-- A push on a stack with room. -/
theorem State.push_lt (w : Word) (h : s.sp.val < 16) :
    s.push w = some { s with stack := s.stack.set s.sp.val w, sp := ⟨s.sp.val + 1, by omega⟩ } := by
  simp [State.push, h]

/-- A push on a full stack. -/
theorem State.push_full (w : Word) (h : s.sp.val = 16) : s.push w = none := by
  simp [State.push, h]

/-- A push answers a state, and only when there is room. -/
theorem State.push_some {w : Word} (h : s.push w = some t) : ∃ hs : s.sp.val < 16,
    t = { s with stack := s.stack.set s.sp.val w, sp := ⟨s.sp.val + 1, by omega⟩ } := by
  unfold State.push at h
  split at h
  · rename_i hs; exact ⟨hs, by simpa using h.symm⟩
  · cases h

/-- A push has no answer only when the stack is full. -/
theorem State.push_none {w : Word} (h : s.push w = none) : s.sp.val = 16 := by
  unfold State.push at h
  split at h
  · cases h
  · have := s.sp.isLt; omega

/-- A pop from a stack whose top entry is `j`. -/
theorem State.pop_succ (j : Fin 16) (h : s.sp.val = j.val + 1) :
    s.pop = some (s.stack[j], { s with sp := ⟨j.val, by omega⟩ }) := by
  have h0 : 0 < s.sp.val := by omega
  have hj : s.sp.val - 1 = j.val := by omega
  simp [State.pop, h0, hj]

/-- A pop from an empty stack. -/
theorem State.pop_empty (h : s.sp.val = 0) : s.pop = none := by
  simp [State.pop, h]

/-- A pop answers the top entry, and only when there is one. -/
theorem State.pop_some {w : Word} (h : s.pop = some (w, t)) : ∃ j : Fin 16, s.sp.val = j.val + 1 ∧ w = s.stack[j] ∧
    t = { s with sp := ⟨j.val, by omega⟩ } := by
  unfold State.pop at h
  split at h
  · rename_i hs
    have := s.sp.isLt
    simp only [Option.some.injEq, Prod.mk.injEq] at h
    exact ⟨⟨s.sp.val - 1, by omega⟩, by simp; omega, h.1.symm, h.2.symm⟩
  · cases h

/-- A pop has no answer only when the stack is empty. -/
theorem State.pop_none (h : s.pop = none) : s.sp.val = 0 := by
  unfold State.pop at h
  split at h
  · cases h
  · omega

/-! ## Key operands -/

/-- The key code is in range. -/
theorem State.keyCode_of_eq {x : Reg} (k : KeyCode) (h : (s.getV x).toNat = k.val) : s.keyCode x = some k := by
  have hk := k.isLt
  simp only [State.keyCode, h, hk, dite_true]

/-- The key code is out of range. -/
theorem State.keyCode_big {x : Reg} (h : 0xF < (s.getV x).toNat) : s.keyCode x = none := by
  simp only [State.keyCode, show ¬ (s.getV x).toNat < 16 by omega, dite_false]

theorem State.keyCode_some {x : Reg} {k : KeyCode} (h : s.keyCode x = some k) : (s.getV x).toNat = k.val := by
  unfold State.keyCode at h
  split at h
  · simp only [Option.some.injEq] at h; rw [← h]
  · cases h

theorem State.keyCode_none {x : Reg} (h : s.keyCode x = none) : 0xF < (s.getV x).toNat := by
  unfold State.keyCode at h
  split at h
  · cases h
  · omega

/-! ## The fetch -/

/-- The fetch inside memory reads the two bytes, the lower address more significant. -/
theorem State.fetchWord_valid (h : s.pc.toNat < 0xFFF) :
    s.fetchWord = .ok (s.byteAt s.pc.toNat ++ s.byteAt (s.pc.toNat + 1)) := by
  have hr : s.readBytes s.pc.toNat 2 = .ok (s.bytesAt s.pc.toNat 2) :=
    State.readBytes_valid (.inr (by unfold memSize; omega))
  have hb : s.bytesAt s.pc.toNat 2 = [s.byteAt s.pc.toNat, s.byteAt (s.pc.toNat + 1)] := by
    simp [State.bytesAt, List.range_succ]
  have h1 := (s.byteAt s.pc.toNat).isLt
  have h2 := (s.byteAt (s.pc.toNat + 1)).isLt
  simp only [State.fetchWord, State.memRead, hr, hb, Except.map]
  congr 1
  apply BitVec.eq_of_toNat_eq
  rw [BitVec.toNat_append, Nat.shiftLeft_eq, Nat.mul_comm, ← Nat.two_pow_add_eq_or_of_lt h2]
  simp [bigEndian]
  omega

/-- The fetch outside memory reports the lowest invalid address. -/
theorem State.fetchWord_invalid (h : 0xFFF ≤ s.pc.toNat) : s.fetchWord =
    .error { kind := .memoryFault, pc := s.pc, word := none, addr := some (max s.pc.toNat 0x1000) } := by
  have hr : s.readBytes s.pc.toNat 2 = .error (max s.pc.toNat memSize) :=
    State.readBytes_invalid (by omega) (by unfold memSize; omega)
  simp only [State.fetchWord, State.memRead, hr, Except.map]
  rfl

/-- A fetch that succeeds was inside memory. -/
theorem State.fetchWord_ok {w : Word} (h : s.fetchWord = .ok w) :
    s.pc.toNat < 0xFFF ∧ w = s.byteAt s.pc.toNat ++ s.byteAt (s.pc.toNat + 1) := by
  by_cases hp : s.pc.toNat < 0xFFF
  · rw [State.fetchWord_valid hp] at h; exact ⟨hp, by simpa using h.symm⟩
  · rw [State.fetchWord_invalid (by omega)] at h; cases h

/-- A fetched instruction is the decoding of the fetched word. -/
theorem State.fetchInstr_ok {ins : Instr} (h : s.fetchInstr = .ok ins) :
    ∃ w, s.fetchWord = .ok w ∧ decode w = some ins := by
  unfold State.fetchInstr at h
  split at h
  · cases h
  · rename_i w hw
    split at h
    · cases h
    · rename_i i hi; exact ⟨w, hw, by simpa [hi] using h⟩

theorem State.fetchInstr_of_decode {w : Word} {ins : Instr} (hw : s.fetchWord = .ok w) (hd : decode w = some ins) :
    s.fetchInstr = .ok ins := by
  simp [State.fetchInstr, hw, hd]

/-- The record of a failed fetch or decode names the fetch address. -/
theorem State.fetchInstr_error_pc {r : FaultRecord} (h : s.fetchInstr = .error r) : r.pc = s.pc := by
  unfold State.fetchInstr at h
  by_cases hp : s.pc.toNat < 0xFFF
  · rw [State.fetchWord_valid hp] at h
    dsimp only at h
    split at h
    · simp only [Except.error.injEq] at h; rw [← h]
    · cases h
  · rw [State.fetchWord_invalid (by omega)] at h
    simp only [Except.error.injEq] at h; rw [← h]

/-! ## The step -/

/-- The two ways a step answers a next state: it takes the fetch's error, or it runs the fetched instruction. -/
theorem step_next (h : step s = .next t) : s.status = .running ∧
    ((∃ r, s.fetchInstr = .error r ∧ t = { s with status := .faulted r }) ∨
     (∃ ins, s.fetchInstr = .ok ins ∧ exec ins s = .next t)) := by
  unfold step at h
  split at h
  · cases h
  · rename_i hs
    refine ⟨hs, ?_⟩
    split at h
    · rename_i r hr; exact .inl ⟨r, hr, by simpa using h.symm⟩
    · rename_i ins hi; exact .inr ⟨ins, hi, h⟩

/-- A step of a running block whose fetch answers an instruction runs it. -/
theorem step_of_fetch {ins : Instr} (hs : s.status = .running) (hf : s.fetchInstr = .ok ins) : step s = exec ins s := by
  simp [step, hs, hf]

/-- A step of a faulted block answers its record. -/
theorem step_faulted {r : FaultRecord} (hs : s.status = .faulted r) : step s = .fault (.halted r) := by
  simp [step, hs, halted]

end Sys2Proof.Machine
end

