-- ==== Sys2Proof/Laws/Exec.lean ====
section
/-! SUPPORT. The meanings that branch, each with one lemma a branch that says what it answers there, and the one lemma about
every instruction's status (spec 40_control_flow.md, 43_memory_index.md, 44_display.md, 45_input.md; 30_encoding.md R112).
The other meanings are one call of `done` and unfold to it. -/

namespace Sys2Proof.Machine

variable {s t : State} {x y : Reg}

/-- `CALL` with room on the stack. -/
theorem execCall_room (nnn : Addr12) (h : s.sp.val < 16) : execCall nnn s =
    .next { s with stack := s.stack.set s.sp.val (s.pc + 2), sp := ⟨s.sp.val + 1, by omega⟩, pc := zext16 nnn, wait := none } := by
  simp [execCall, State.push_lt _ h, State.setPc]

/-- `CALL` with a full stack. -/
theorem execCall_full (nnn : Addr12) (h : s.sp.val = 16) : execCall nnn s = raiseOverflow (.call nnn) s := by
  simp [execCall, State.push_full _ h]

/-- `RET` with `j + 1` entries on the stack. -/
theorem execRet_entry (j : Fin 16) (h : s.sp.val = j.val + 1) : execRet s =
    .next { s with sp := ⟨j.val, by omega⟩, pc := s.stack[j], wait := none } := by
  simp [execRet, State.pop_succ j h, State.setPc]

/-- `RET` with an empty stack. -/
theorem execRet_empty (h : s.sp.val = 0) : execRet s = raiseUnderflow .ret s := by
  simp [execRet, State.pop_empty h]

@[simp] theorem length_regBlock : (s.regBlock x).length = x.val + 1 := by
  simp [State.regBlock]

@[simp] theorem length_bcdDigits (b : Byte) : (bcdDigits b).length = 3 := rfl

/-- `LD [I], Vx` inside memory. -/
theorem execLdMemVx_in (h : s.indexAddr + x.val < memSize) : execLdMemVx x s =
    done ((s.setBytes s.indexAddr (s.regBlock x)).advance.indexAfterLdst x) := by
  simp only [execLdMemVx, State.writeBytes_valid (s := s) (bs := s.regBlock x) (addr := s.indexAddr) (.inr (by simp; omega))]

/-- `LD [I], Vx` past the end of memory. -/
theorem execLdMemVx_out (h : memSize ≤ s.indexAddr + x.val) : execLdMemVx x s =
    raiseMemory (.ldMemVx x) (max s.indexAddr memSize) s := by
  simp only [execLdMemVx, State.writeBytes_invalid (s := s) (bs := s.regBlock x) (addr := s.indexAddr) (by simp) (by simp; omega)]

/-- `LD Vx, [I]` inside memory. -/
theorem execLdVxMem_in (h : s.indexAddr + x.val < memSize) : execLdVxMem x s =
    done ((s.advance.loadRegBlock x (s.bytesAt s.indexAddr (x.val + 1))).indexAfterLdst x) := by
  simp only [execLdVxMem, State.readBytes_valid (s := s) (n := x.val + 1) (addr := s.indexAddr) (.inr (by omega))]

/-- `LD Vx, [I]` past the end of memory. -/
theorem execLdVxMem_out (h : memSize ≤ s.indexAddr + x.val) : execLdVxMem x s =
    raiseMemory (.ldVxMem x) (max s.indexAddr memSize) s := by
  simp only [execLdVxMem, State.readBytes_invalid (s := s) (n := x.val + 1) (addr := s.indexAddr) (by omega) (by omega)]

/-- `LD B, Vx` inside memory. -/
theorem execLdB_in (h : s.indexAddr + 2 < memSize) : execLdB x s =
    done (s.setBytes s.indexAddr (bcdDigits (s.getV x))).advance := by
  simp only [execLdB, State.writeBytes_valid (s := s) (bs := bcdDigits (s.getV x)) (addr := s.indexAddr) (.inr (by simp; omega))]

/-- `LD B, Vx` past the end of memory. -/
theorem execLdB_out (h : memSize ≤ s.indexAddr + 2) : execLdB x s =
    raiseMemory (.ldB x) (max s.indexAddr memSize) s := by
  simp only [execLdB, State.writeBytes_invalid (s := s) (bs := bcdDigits (s.getV x)) (addr := s.indexAddr) (by simp) (by simp; omega)]

/-- `DRW` with its sprite inside memory, or with no row. -/
theorem execDrw_in (n : Nibble) (h : n.toNat = 0 ∨ s.indexAddr + n.toNat ≤ memSize) : execDrw x y n s =
    done ((s.advance.setFb (drawSprite (s.spriteOrigin x y).1 (s.spriteOrigin x y).2 (s.bytesAt s.indexAddr n.toNat) s.fb).1).setFlag
      (drawSprite (s.spriteOrigin x y).1 (s.spriteOrigin x y).2 (s.bytesAt s.indexAddr n.toNat) s.fb).2) := by
  simp only [execDrw, State.readBytes_valid (s := s) h]

/-- `DRW` with a sprite byte past the end of memory. -/
theorem execDrw_out (n : Nibble) (h0 : 0 < n.toNat) (h : memSize < s.indexAddr + n.toNat) : execDrw x y n s =
    raiseMemory (.drw x y n) (max s.indexAddr memSize) s := by
  simp only [execDrw, State.readBytes_invalid (s := s) h0 h]

/-- `SKP` with a key code in range. -/
theorem execSkp_code (k : KeyCode) (h : (s.getV x).toNat = k.val) : execSkp x s = done (s.advance.skipIf s.key[k]) := by
  simp only [execSkp, State.keyCode_of_eq k h, State.isPressed]

/-- `SKP` with a key code out of range. -/
theorem execSkp_refused (h : 0xF < (s.getV x).toNat) : execSkp x s = .refused .keyCodeOutOfRange := by
  simp only [execSkp, State.keyCode_big h, refuseKeyCode]

/-- `SKNP` with a key code in range. -/
theorem execSknp_code (k : KeyCode) (h : (s.getV x).toNat = k.val) : execSknp x s = done (s.advance.skipIf !s.key[k]) := by
  simp only [execSknp, State.keyCode_of_eq k h, State.isPressed]

/-- `SKNP` with a key code out of range. -/
theorem execSknp_refused (h : 0xF < (s.getV x).toNat) : execSknp x s = .refused .keyCodeOutOfRange := by
  simp only [execSknp, State.keyCode_big h, refuseKeyCode]

/-- Every instruction that answers a next state either keeps `status`, or takes a fatal error: then nothing but `status`
changed, and the record names the fetch address (30_encoding.md R112). -/
theorem exec_next_status (ins : Instr) (h : exec ins s = .next t) :
    t.status = s.status ∨ ∃ r : FaultRecord, r.pc = s.pc ∧ t = { s with status := .faulted r } := by
  have hdone : ∀ u : State, u.status = s.status → done u = .next t → t.status = s.status := by
    intro u hu hd; simp at hd; subst hd; exact hu
  have hraise : ∀ (e : Nat), raiseMemory ins e s = .next t → ∃ r : FaultRecord, r.pc = s.pc ∧ t = { s with status := .faulted r } := by
    intro e he; exact ⟨_, rfl, by simpa using he.symm⟩
  cases ins <;> simp only [exec] at h
  case call nnn =>
    by_cases hs : s.sp.val < 16
    · rw [execCall_room nnn hs] at h; left; cases h; rfl
    · rw [execCall_full nnn (by have := s.sp.isLt; omega)] at h; right; exact ⟨_, rfl, by simpa using h.symm⟩
  case ret =>
    by_cases hs : s.sp.val = 0
    · rw [execRet_empty hs] at h; right; exact ⟨_, rfl, by simpa using h.symm⟩
    · have := s.sp.isLt
      rw [execRet_entry ⟨s.sp.val - 1, by omega⟩ (by simp; omega)] at h; left; cases h; rfl
  case ldMemVx x =>
    by_cases hm : s.indexAddr + x.val < memSize
    · rw [execLdMemVx_in hm] at h; exact .inl (hdone _ (by simp) h)
    · rw [execLdMemVx_out (by omega)] at h; exact .inr (hraise _ h)
  case ldVxMem x =>
    by_cases hm : s.indexAddr + x.val < memSize
    · rw [execLdVxMem_in hm] at h; exact .inl (hdone _ (by simp) h)
    · rw [execLdVxMem_out (by omega)] at h; exact .inr (hraise _ h)
  case ldB x =>
    by_cases hm : s.indexAddr + 2 < memSize
    · rw [execLdB_in hm] at h; exact .inl (hdone _ (by simp) h)
    · rw [execLdB_out (by omega)] at h; exact .inr (hraise _ h)
  case drw x y n =>
    by_cases hm : n.toNat = 0 ∨ s.indexAddr + n.toNat ≤ memSize
    · rw [execDrw_in n hm] at h; exact .inl (hdone _ (by simp) h)
    · rw [execDrw_out n (by omega) (by omega)] at h; exact .inr (hraise _ h)
  case skp x =>
    by_cases hk : (s.getV x).toNat < 16
    · rw [execSkp_code ⟨_, hk⟩ rfl] at h; exact .inl (hdone _ (by simp) h)
    · rw [execSkp_refused (by omega)] at h; cases h
  case sknp x =>
    by_cases hk : (s.getV x).toNat < 16
    · rw [execSknp_code ⟨_, hk⟩ rfl] at h; exact .inl (hdone _ (by simp) h)
    · rw [execSknp_refused (by omega)] at h; cases h
  case ldVxK x =>
    left
    unfold execLdVxK at h
    split at h
    · exact hdone _ (by simp) h
    · cases h; rfl
  all_goals exact .inl (hdone _ (by simp) h)

end Sys2Proof.Machine
end

