-- ==== Sys2Proof/Laws/PerInstr.lean ====
section
/-! SUPPORT. Statements about every instruction as syntax, one lemma a constructor. Family EncodesInRow: the encoder's
word carries the fixed bits that the instruction's row of spec/opcode_table.json gives. -/

namespace Sys2Proof

/-! ## The fixed bits of an assembled word -/

theorem encodeAddr_and (op : Nibble) (nnn : Addr12) : encodeAddr op nnn &&& 0xF000 = encodeAddr op 0 := by
  refine BitVec.eq_of_getLsbD_eq fun k hk => ?_
  simp only [BitVec.getLsbD_and, getLsbD_encodeAddr]
  interval_cases k <;> simp

theorem encodeXNN_and_op (op : Nibble) (x : Reg) (nn : Byte) : encodeXNN op x nn &&& 0xF000 = encodeXNN op 0 0 := by
  refine BitVec.eq_of_getLsbD_eq fun k hk => ?_
  simp only [BitVec.getLsbD_and, getLsbD_encodeXNN]
  interval_cases k <;> simp

theorem encodeXNN_and_sub (op : Nibble) (x : Reg) (nn : Byte) : encodeXNN op x nn &&& 0xF0FF = encodeXNN op 0 nn := by
  refine BitVec.eq_of_getLsbD_eq fun k hk => ?_
  simp only [BitVec.getLsbD_and, getLsbD_encodeXNN]
  interval_cases k <;> simp

theorem encodeXYN_and_op (op : Nibble) (x y : Reg) (n : Nibble) :
    encodeXYN op x y n &&& 0xF000 = encodeXYN op 0 0 0 := by
  refine BitVec.eq_of_getLsbD_eq fun k hk => ?_
  simp only [BitVec.getLsbD_and, getLsbD_encodeXYN]
  interval_cases k <;> simp

theorem encodeXYN_and_sub (op : Nibble) (x y : Reg) (n : Nibble) :
    encodeXYN op x y n &&& 0xF00F = encodeXYN op 0 0 n := by
  refine BitVec.eq_of_getLsbD_eq fun k hk => ?_
  simp only [BitVec.getLsbD_and, getLsbD_encodeXYN]
  interval_cases k <;> simp

/-- The mask and the match of an instruction's row in spec/opcode_table.json. -/
def fixedBits : Instr → Word × Word
  | .cls => (0xFFFF, 0x00E0)
  | .ret => (0xFFFF, 0x00EE)
  | .jp _ => (0xF000, 0x1000)
  | .call _ => (0xF000, 0x2000)
  | .seByte _ _ => (0xF000, 0x3000)
  | .sneByte _ _ => (0xF000, 0x4000)
  | .seReg _ _ => (0xF00F, 0x5000)
  | .ldByte _ _ => (0xF000, 0x6000)
  | .addByte _ _ => (0xF000, 0x7000)
  | .ldReg _ _ => (0xF00F, 0x8000)
  | .orReg _ _ => (0xF00F, 0x8001)
  | .andReg _ _ => (0xF00F, 0x8002)
  | .xorReg _ _ => (0xF00F, 0x8003)
  | .addReg _ _ => (0xF00F, 0x8004)
  | .sub _ _ => (0xF00F, 0x8005)
  | .shr _ _ => (0xF00F, 0x8006)
  | .subn _ _ => (0xF00F, 0x8007)
  | .shl _ _ => (0xF00F, 0x800E)
  | .sneReg _ _ => (0xF00F, 0x9000)
  | .ldI _ => (0xF000, 0xA000)
  | .jpV0 _ => (0xF000, 0xB000)
  | .rnd _ _ => (0xF000, 0xC000)
  | .drw _ _ _ => (0xF000, 0xD000)
  | .skp _ => (0xF0FF, 0xE09E)
  | .sknp _ => (0xF0FF, 0xE0A1)
  | .ldVxDt _ => (0xF0FF, 0xF007)
  | .ldVxK _ => (0xF0FF, 0xF00A)
  | .ldDtVx _ => (0xF0FF, 0xF015)
  | .ldStVx _ => (0xF0FF, 0xF018)
  | .addI _ => (0xF0FF, 0xF01E)
  | .ldF _ => (0xF0FF, 0xF029)
  | .ldB _ => (0xF0FF, 0xF033)
  | .ldMemVx _ => (0xF0FF, 0xF055)
  | .ldVxMem _ => (0xF0FF, 0xF065)

namespace Laws.EncodesInRow

/-- The encoder's word under the row's mask is the row's match. -/
def Statement (i : Instr) : Prop := encode i &&& (fixedBits i).1 = (fixedBits i).2

theorem cls : Statement .cls := rfl
theorem ret : Statement .ret := rfl
theorem jp (nnn : Addr12) : Statement (.jp nnn) := (encodeAddr_and _ _).trans rfl
theorem call (nnn : Addr12) : Statement (.call nnn) := (encodeAddr_and _ _).trans rfl
theorem seByte (x : Reg) (nn : Byte) : Statement (.seByte x nn) := (encodeXNN_and_op _ _ _).trans rfl
theorem sneByte (x : Reg) (nn : Byte) : Statement (.sneByte x nn) := (encodeXNN_and_op _ _ _).trans rfl
theorem seReg (x y : Reg) : Statement (.seReg x y) := (encodeXYN_and_sub _ _ _ _).trans rfl
theorem ldByte (x : Reg) (nn : Byte) : Statement (.ldByte x nn) := (encodeXNN_and_op _ _ _).trans rfl
theorem addByte (x : Reg) (nn : Byte) : Statement (.addByte x nn) := (encodeXNN_and_op _ _ _).trans rfl
theorem ldReg (x y : Reg) : Statement (.ldReg x y) := (encodeXYN_and_sub _ _ _ _).trans rfl
theorem orReg (x y : Reg) : Statement (.orReg x y) := (encodeXYN_and_sub _ _ _ _).trans rfl
theorem andReg (x y : Reg) : Statement (.andReg x y) := (encodeXYN_and_sub _ _ _ _).trans rfl
theorem xorReg (x y : Reg) : Statement (.xorReg x y) := (encodeXYN_and_sub _ _ _ _).trans rfl
theorem addReg (x y : Reg) : Statement (.addReg x y) := (encodeXYN_and_sub _ _ _ _).trans rfl
theorem sub (x y : Reg) : Statement (.sub x y) := (encodeXYN_and_sub _ _ _ _).trans rfl
theorem shr (x y : Reg) : Statement (.shr x y) := (encodeXYN_and_sub _ _ _ _).trans rfl
theorem subn (x y : Reg) : Statement (.subn x y) := (encodeXYN_and_sub _ _ _ _).trans rfl
theorem shl (x y : Reg) : Statement (.shl x y) := (encodeXYN_and_sub _ _ _ _).trans rfl
theorem sneReg (x y : Reg) : Statement (.sneReg x y) := (encodeXYN_and_sub _ _ _ _).trans rfl
theorem ldI (nnn : Addr12) : Statement (.ldI nnn) := (encodeAddr_and _ _).trans rfl
theorem jpV0 (nnn : Addr12) : Statement (.jpV0 nnn) := (encodeAddr_and _ _).trans rfl
theorem rnd (x : Reg) (nn : Byte) : Statement (.rnd x nn) := (encodeXNN_and_op _ _ _).trans rfl
theorem drw (x y : Reg) (n : Nibble) : Statement (.drw x y n) := (encodeXYN_and_op _ _ _ _).trans rfl
theorem skp (x : Reg) : Statement (.skp x) := (encodeXNN_and_sub _ _ _).trans rfl
theorem sknp (x : Reg) : Statement (.sknp x) := (encodeXNN_and_sub _ _ _).trans rfl
theorem ldVxDt (x : Reg) : Statement (.ldVxDt x) := (encodeXNN_and_sub _ _ _).trans rfl
theorem ldVxK (x : Reg) : Statement (.ldVxK x) := (encodeXNN_and_sub _ _ _).trans rfl
theorem ldDtVx (x : Reg) : Statement (.ldDtVx x) := (encodeXNN_and_sub _ _ _).trans rfl
theorem ldStVx (x : Reg) : Statement (.ldStVx x) := (encodeXNN_and_sub _ _ _).trans rfl
theorem addI (x : Reg) : Statement (.addI x) := (encodeXNN_and_sub _ _ _).trans rfl
theorem ldF (x : Reg) : Statement (.ldF x) := (encodeXNN_and_sub _ _ _).trans rfl
theorem ldB (x : Reg) : Statement (.ldB x) := (encodeXNN_and_sub _ _ _).trans rfl
theorem ldMemVx (x : Reg) : Statement (.ldMemVx x) := (encodeXNN_and_sub _ _ _).trans rfl
theorem ldVxMem (x : Reg) : Statement (.ldVxMem x) := (encodeXNN_and_sub _ _ _).trans rfl

end Laws.EncodesInRow

end Sys2Proof
end

