-- ==== Sys2Proof/Tests/Slice0.lean ====
section
/-! SUPPORT. Small tests by `decide`: ill-formed operands are refused, words written out from the encodings of spec/
30_encoding.md R97 decode, at most two steps an instruction from the vectors V<n> of spec/95_test_vectors.md, and the
witnesses of the statements' hypotheses at boundary values. -/

namespace Sys2Proof

open Machine

/-! ## Ill-formed operands (30_encoding.md R91, R102) -/

theorem test_ill_formed_operands : (Operand.reg 16).inRange = false ∧ (Operand.byte 256).inRange = false ∧
    (Operand.addr 4096).inRange = false ∧ (Operand.nibble 16).inRange = false := by decide

theorem test_assemble_refuses : assembleAddr .jp 4096 = none ∧ assembleXNN .ldByte 16 0 = none ∧
    assembleXNN .ldByte 0 256 = none ∧ assembleXYS .shr 16 none = none ∧ assembleXYS .addReg 0 (some 16) = none ∧
    assembleXYN .drw 0 16 0 = none ∧ assembleXYN .drw 0 0 16 = none ∧ assembleXS .skp 16 = none := by decide

theorem test_assemble_boundaries : assembleAddr .jp 4095 = some (.jp 0xFFF) ∧
    assembleXNN .ldByte 15 255 = some (.ldByte 15 0xFF) ∧ assembleXYS .shr 1 none = some (.shr 1 0) ∧
    assembleXYN .drw 15 15 15 = some (.drw 15 15 15) := by decide

/-- The listing line of 30_encoding.md R102. -/
theorem test_asm : (Instr.ldByte 0 0x05).asm = "LD V0, 0x05" ∧ (Instr.drw 10 11 5).asm = "DRW VA, VB, 0x5" := by decide

/-! ## Decoding: each word written out from the pattern of its row in R97 -/

theorem test_decode_control : decode 0b0000000011101110 = some .ret ∧ decode 0b0001001000110100 = some (.jp 0x234) ∧
    decode 0b0010001100000000 = some (.call 0x300) ∧ decode 0b0011001100010000 = some (.seByte 3 0x10) ∧
    decode 0b0100001100010001 = some (.sneByte 3 0x11) ∧ decode 0b0101000100100000 = some (.seReg 1 2) ∧
    decode 0b1001000100100000 = some (.sneReg 1 2) ∧ decode 0b1011001100000000 = some (.jpV0 0x300) := by decide

theorem test_decode_arithmetic : decode 0b0110101000101111 = some (.ldByte 10 0x2F) ∧
    decode 0b0111000011111111 = some (.addByte 0 0xFF) ∧ decode 0b1000000100100000 = some (.ldReg 1 2) ∧
    decode 0b1000000100100001 = some (.orReg 1 2) ∧ decode 0b1000000100100010 = some (.andReg 1 2) ∧
    decode 0b1000000100100011 = some (.xorReg 1 2) ∧ decode 0b1000000100100100 = some (.addReg 1 2) ∧
    decode 0b1000000100100101 = some (.sub 1 2) ∧ decode 0b1000000100100110 = some (.shr 1 2) ∧
    decode 0b1000000100100111 = some (.subn 1 2) ∧ decode 0b1000000100101110 = some (.shl 1 2) := by decide

theorem test_decode_random_memory : decode 0b1100001100001111 = some (.rnd 3 0x0F) ∧
    decode 0b1010001011110000 = some (.ldI 0x2F0) ∧ decode 0b1111001000011110 = some (.addI 2) ∧
    decode 0b1111010000101001 = some (.ldF 4) ∧ decode 0b1111000000110011 = some (.ldB 0) ∧
    decode 0b1111000101010101 = some (.ldMemVx 1) ∧ decode 0b1111001001100101 = some (.ldVxMem 2) := by decide

theorem test_decode_display_input_timers : decode 0b0000000011100000 = some .cls ∧
    decode 0b1101000000010101 = some (.drw 0 1 5) ∧ decode 0b1110010110011110 = some (.skp 5) ∧
    decode 0b1110010110100001 = some (.sknp 5) ∧ decode 0b1111001100001010 = some (.ldVxK 3) ∧
    decode 0b1111001000000111 = some (.ldVxDt 2) ∧ decode 0b1111001000010101 = some (.ldDtVx 2) ∧
    decode 0b1111001000011000 = some (.ldStVx 2) := by decide

/-- V1 to V8: unknown words. -/
theorem test_decode_unknown : decode 0x0000 = none ∧ decode 0x0123 = none ∧ decode 0x5121 = none ∧ decode 0x8128 = none ∧
    decode 0x812F = none ∧ decode 0x912E = none ∧ decode 0xE1A2 = none ∧ decode 0xF1FF = none := by decide

/-- Bytes are read big-endian, and fewer than two decode to nothing (30_encoding.md R90). -/
theorem test_decode_bytes : (decodeBytes [0x6A, 0x2F, 0x01]).toOption = some (.ldByte 10 0x2F, [0x01]) ∧
    (decodeBytes [0x6A]).toOption = none ∧ (decodeBytes []).toOption = none ∧ decodeTableWord 16 0x6A2F = some (.ldByte 10 0x2F) := by decide

theorem test_encode : encode (.drw 0 1 5) = 0b1101000000010101 ∧ encode (.ldVxMem 2) = 0b1111001001100101 ∧
    encode (.sub 1 2) = 0b1000000100100101 ∧ encode (.jp 0x234) = 0b0001001000110100 := by decide

/-! ## One step of a small state -/

namespace Test

/-- The next state of one step that runs the word `w` at `PC`. -/
def after (s : State) (w : Nat) : Option State :=
  match step (s.withFetchWord 16 w) with
  | .next t => some t
  | _ => none

/-- The refusal of an outcome. -/
def refusal : Outcome → Option Refusal
  | .refused why => some why
  | _ => none

/-- One fact of the next state. -/
def holdsOf (o : Option State) (p : State → Bool) : Bool := (o.map p).getD false

/-- Registers loaded. -/
def regs (l : List (Reg × Byte)) (s : State := State.reset) : State := l.foldl (fun s p => s.setV p.1 p.2) s

/-- Reset with the other value of each parameter. -/
def other : State :=
  State.resetWith { Config.default with shiftSource := .vy, indexAfterLdst := .addXPlus1, keyWaitTrigger := .level }

/-- The record of a faulted state. -/
def record (s : State) : Option FaultRecord :=
  match s.status with
  | .running => none
  | .faulted r => some r

/-- A state whose stack holds `d` copies of 0x222. -/
def deep (d : Fin 17) : State := { State.reset with sp := d, stack := Vector.replicate 16 0x222 }

/-- A state with a faulted status. -/
def dead : State :=
  { State.reset with status := .faulted { kind := .unknownInstruction, pc := 0x200, word := some 0, addr := none } }

end Test

open Test

/-! ### Control flow: V14, V17, V19, V21, V22, V23, V24, V26, V27, V28, V29, V31, V32, V35, V36 -/

theorem test_jp : holdsOf (after State.reset 0x1234) (fun t => decide (t.pc = 0x234)) := by decide

theorem test_call : holdsOf (after State.reset 0x2300)
    (fun t => decide (t.pc = 0x300 ∧ t.sp.val = 1 ∧ t.stack[0] = 0x202)) := by decide

theorem test_call_overflow : holdsOf (after (deep 16) 0x2300) (fun t => decide (t.pc = 0x200 ∧ t.sp.val = 16 ∧
    record t = some { kind := .stackOverflow, pc := 0x200, word := some 0x2300, addr := none })) := by decide

theorem test_ret : holdsOf (after (deep 1) 0x00EE) (fun t => decide (t.pc = 0x222 ∧ t.sp.val = 0)) := by decide

theorem test_ret_underflow : holdsOf (after State.reset 0x00EE) (fun t => decide (t.pc = 0x200 ∧
    record t = some { kind := .stackUnderflow, pc := 0x200, word := some 0x00EE, addr := none })) := by decide

theorem test_se_byte : holdsOf (after (regs [(3, 0x10)]) 0x3310) (fun t => decide (t.pc = 0x204)) ∧
    holdsOf (after (regs [(3, 0x11)]) 0x3310) (fun t => decide (t.pc = 0x202)) := by decide

theorem test_sne_byte : holdsOf (after (regs [(3, 0x10)]) 0x4310) (fun t => decide (t.pc = 0x202)) ∧
    holdsOf (after (regs [(3, 0x10)]) 0x4311) (fun t => decide (t.pc = 0x204)) := by decide

theorem test_se_reg : holdsOf (after (regs [(1, 7), (2, 7)]) 0x5120) (fun t => decide (t.pc = 0x204)) ∧
    holdsOf (after (regs [(1, 7), (2, 8)]) 0x5120) (fun t => decide (t.pc = 0x202)) := by decide

theorem test_sne_reg : holdsOf (after (regs [(1, 7), (2, 8)]) 0x9120) (fun t => decide (t.pc = 0x204)) ∧
    holdsOf (after (regs [(1, 9)]) 0x9110) (fun t => decide (t.pc = 0x202)) := by decide

theorem test_jp_v0 : holdsOf (after (regs [(0, 0xFF), (1, 0x50)]) 0xBFFF) (fun t => decide (t.pc = 0x10FE)) := by decide

/-! ### Arithmetic and logic: V38 to V71 -/

theorem test_ld_byte : holdsOf (after State.reset 0x6A2F) (fun t => decide (t.getV 10 = 0x2F ∧ t.pc = 0x202)) := by decide

theorem test_add_byte : holdsOf (after (regs [(0, 0xFF), (15, 0x55)]) 0x7001)
    (fun t => decide (t.getV 0 = 0 ∧ t.getV 15 = 0x55)) := by decide

theorem test_ld_reg : holdsOf (after (regs [(2, 0x99)]) 0x8120) (fun t => decide (t.getV 1 = 0x99 ∧ t.getV 2 = 0x99)) := by decide

theorem test_or : holdsOf (after (regs [(1, 0x0F), (2, 0xF0), (15, 0x55)]) 0x8121)
    (fun t => decide (t.getV 1 = 0xFF ∧ t.getV 15 = 0x55)) := by decide

theorem test_and : holdsOf (after (regs [(1, 0x3C), (2, 0x0F), (15, 0x55)]) 0x8122)
    (fun t => decide (t.getV 1 = 0x0C ∧ t.getV 15 = 0x55)) := by decide

theorem test_xor : holdsOf (after (regs [(1, 0x3C), (2, 0x0F), (15, 0x55)]) 0x8123)
    (fun t => decide (t.getV 1 = 0x33 ∧ t.getV 15 = 0x55)) := by decide

theorem test_add_reg : holdsOf (after (regs [(0, 0xFF), (1, 0x01)]) 0x8014)
    (fun t => decide (t.getV 0 = 0 ∧ t.getV 15 = 1)) := by decide

theorem test_add_reg_flag_wins : holdsOf (after (regs [(15, 0x10), (1, 0x01)]) 0x8F14) (fun t => decide (t.getV 15 = 0)) := by decide

theorem test_sub : holdsOf (after (regs [(1, 0x05), (2, 0x07)]) 0x8125)
    (fun t => decide (t.getV 1 = 0xFE ∧ t.getV 15 = 0)) := by decide

theorem test_sub_equal : holdsOf (after (regs [(1, 0x07), (2, 0x07)]) 0x8125)
    (fun t => decide (t.getV 1 = 0 ∧ t.getV 15 = 1)) := by decide

theorem test_subn : holdsOf (after (regs [(1, 0x05), (2, 0x07)]) 0x8127)
    (fun t => decide (t.getV 1 = 0x02 ∧ t.getV 15 = 1)) := by decide

theorem test_shr : holdsOf (after (regs [(1, 0xFF), (2, 0x04)]) 0x8126)
    (fun t => decide (t.getV 1 = 0x7F ∧ t.getV 15 = 1)) := by decide

theorem test_shr_vy : holdsOf (after (regs [(1, 0xFF), (2, 0x04)] other) 0x8126)
    (fun t => decide (t.getV 1 = 0x02 ∧ t.getV 2 = 0x04 ∧ t.getV 15 = 0)) := by decide

theorem test_shl : holdsOf (after (regs [(1, 0x81)]) 0x810E) (fun t => decide (t.getV 1 = 0x02 ∧ t.getV 15 = 1)) := by decide

theorem test_shl_vy : holdsOf (after (regs [(2, 0x81)] other) 0x812E)
    (fun t => decide (t.getV 1 = 0x02 ∧ t.getV 15 = 1)) := by decide

/-! ### Random: V72, V75 -/

theorem test_rnd : holdsOf (after { State.reset with randIn := some 0xA7 } 0xC30F)
    (fun t => decide (t.getV 3 = 0x07 ∧ t.randIn = none)) := by decide

/-! ### Memory and index: V76 to V99 -/

theorem test_ld_i : holdsOf (after State.reset 0xA2F0) (fun t => decide (t.i = 0x2F0)) := by decide

theorem test_add_i : holdsOf (after { regs [(2, 0x01), (15, 0x55)] with i := 0xFFFF } 0xF21E)
    (fun t => decide (t.i = 0 ∧ t.getV 15 = 0x55)) := by decide

theorem test_ld_f : holdsOf (after (regs [(4, 0x1A)]) 0xF429) (fun t => decide (t.i = 0x032)) := by decide

theorem test_store_block : holdsOf (after { regs [(0, 0x11), (1, 0x22)] other with i := 0x300 } 0xF155)
    (fun t => decide (t.bytesAt 0x300 3 = [0x11, 0x22, 0x00] ∧ t.i = 0x302)) := by decide

theorem test_store_block_fault : holdsOf (after { regs [(0, 0x01)] with i := 0xFF1 } 0xFF55) (fun t => decide (t.byteAt 0xFF1 = 0 ∧
    record t = some { kind := .memoryFault, pc := 0x200, word := some 0xFF55, addr := some 0x1000 })) := by decide

theorem test_load_block : holdsOf (after { (State.reset.setBytes 0x300 [2, 5, 4, 9]) with i := 0x300 } 0xF265)
    (fun t => decide (t.getV 0 = 2 ∧ t.getV 1 = 5 ∧ t.getV 2 = 4 ∧ t.getV 3 = 0 ∧ t.i = 0x300)) := by decide

theorem test_load_block_fault : holdsOf (after { regs [(0, 0x33)] with i := 0xFFF } 0xF165) (fun t => decide (t.getV 0 = 0x33 ∧
    record t = some { kind := .memoryFault, pc := 0x200, word := some 0xF165, addr := some 0x1000 })) := by decide

theorem test_bcd : holdsOf (after { regs [(0, 0xFE)] other with i := 0x300 } 0xF033)
    (fun t => decide (t.bytesAt 0x300 3 = [2, 5, 4] ∧ t.i = 0x300)) := by decide

theorem test_bcd_fault : holdsOf (after { regs [(0, 0x7B)] with i := 0xFFE } 0xF033) (fun t => decide (t.byteAt 0xFFE = 0 ∧
    record t = some { kind := .memoryFault, pc := 0x200, word := some 0xF033, addr := some 0x1000 })) := by decide

/-! ### Display: V100, V103, V104 -/

theorem test_cls : holdsOf (after { State.reset with fb := Display.setPixel Display.clear 63 31 true } 0x00E0)
    (fun t => !Display.pixel t.fb 63 31) := by decide

theorem test_drw_wraps_across : holdsOf (after { (regs [(0, 0x3C)]).setByte 0x300 0xFF with i := 0x300 } 0xD011)
    (fun t => Display.pixel t.fb 63 0 && Display.pixel t.fb 3 0 && !Display.pixel t.fb 4 0 && !Display.pixel t.fb 59 0 &&
      decide (t.getV 15 = 0)) := by decide

theorem test_drw_collides : holdsOf (after
    { State.reset.setByte 0x300 0x81 with i := 0x300, fb := Display.setPixel Display.clear 0 0 true } 0xD011)
    (fun t => !Display.pixel t.fb 0 0 && Display.pixel t.fb 7 0 && decide (t.getV 15 = 1)) := by decide

/-! ### Input: V113 to V119, V124 -/

theorem test_skp : holdsOf (after { regs [(5, 0x0A)] with key := State.reset.key.set 10 true } 0xE59E) (fun t => decide (t.pc = 0x204)) ∧
    holdsOf (after (regs [(5, 0x0A)]) 0xE59E) (fun t => decide (t.pc = 0x202)) := by decide

theorem test_sknp : holdsOf (after (regs [(5, 0x0A)]) 0xE5A1) (fun t => decide (t.pc = 0x204)) ∧
    refusal (step ((regs [(5, 0x10)]).withFetchWord 16 0xE5A1)) = some .keyCodeOutOfRange := by decide

theorem test_key_wait : holdsOf (after { State.reset with key := State.reset.key.set 2 true } 0xF30A)
    (fun t => decide (t.pc = 0x200 ∧ t.wait = some (State.reset.key.set 2 true))) := by decide

theorem test_key_wait_level : holdsOf (after { other with key := State.reset.key.set 2 true } 0xF30A)
    (fun t => decide (t.pc = 0x202 ∧ t.getV 3 = 2 ∧ t.wait = none)) := by decide

/-! ### Timers: V128 to V131, V134 -/

theorem test_ld_vx_dt : holdsOf (after { State.reset with dt := 0x3C } 0xF207) (fun t => decide (t.getV 2 = 0x3C)) := by decide

theorem test_ld_dt_vx : holdsOf (after (regs [(2, 5)]) 0xF215) (fun t => decide (t.dt = 5 ∧ t.st = 0)) := by decide

theorem test_ld_st_vx : holdsOf (after (regs [(2, 0x1E)]) 0xF218)
    (fun t => decide (t.st = 0x1E) && t.soundActivePort && decide (t.dt = 0)) := by decide

theorem test_tick : (act .tickTimers { State.reset with st := 2 }).1.st = 1 ∧
    (act .tickTimers { State.reset with st := 2 }).1.dt = 0 := by decide

/-! ### The cycle and the host's ports: V9 to V13, V138 to V141 -/

theorem test_fetch_odd : holdsOf (after { State.reset with pc := 0x201 } 0x602A)
    (fun t => decide (t.getV 0 = 0x2A ∧ t.pc = 0x203)) := by decide

theorem test_fetch_faults : record (act (.step 0) { State.reset with pc := 0xFFF }).1 =
      some { kind := .memoryFault, pc := 0xFFF, word := none, addr := some 0x1000 } ∧
    record (act (.step 0) { State.reset with pc := 0x1002 }).1 =
      some { kind := .memoryFault, pc := 0x1002, word := none, addr := some 0x1002 } := by decide

theorem test_port_word : (act (.readWord 0) State.reset).2 = .word 0xF090 := by decide

theorem test_port_fault : (act (.readByte 0x1000) { State.reset with pc := 0x234 }).2 =
    .fault { kind := .memoryFault, pc := 0x234, word := none, addr := some 0x1000 } := by decide

/-! ## Witnesses: for each statement with hypotheses, states and operands that meet them together, at boundary values -/

theorem witness_EveryTableRowDecodesToItsInstruction :
    opcodeTable.all (fun r => decide (r.pattern &&& r.mask = r.pattern)) = true := by decide

theorem witness_EncodeOfDecodeIsTheWord : decode 0xFF65 = some (.ldVxMem 15) := by decide

theorem witness_StepRunsTheDecodedInstruction : (State.reset.withFetchWord 16 0xD011).status = .running ∧
    (State.reset.withFetchWord 16 0xD011).fetchWord.toOption = some 0xD011 ∧ decode 0xD011 = some (.drw 0 1 1) := by decide

theorem witness_PlacedWordIsTheInstructionThatRuns :
    Memory.wf State.reset.cfg State.reset.mem = true ∧ ({ State.reset with pc := 0xFFE } : State).pc.toNat ≤ 0xFFE := by decide

/-- PC in each of the three clauses. -/
theorem witness_FetchAndDecodeErrorsAreRaisedInOrder : State.reset.status = .running ∧
    0xFFF < ({ State.reset with pc := 0x1000 } : State).pc.toNat ∧ ({ State.reset with pc := 0xFFF } : State).pc.toNat = 0xFFF ∧
    ({ State.reset with pc := 0xFFE } : State).pc.toNat < 0xFFF ∧
    decode (State.reset.byteAt 0xFFE ++ State.reset.byteAt (0xFFE + 1)) = none := by decide

theorem witness_FetchIsBigEndianAtAnyAlignment : ({ State.reset with pc := 0xFFE } : State).pc.toNat < 0xFFF := by decide

theorem witness_FatalErrorCommitsOnlyStatus : State.reset.status = .running ∧
    holdsOf (match step State.reset with | .next t => some t | _ => none)
      (fun t => decide (record t = some { kind := .unknownInstruction, pc := 0x200, word := some 0, addr := none })) := by decide

theorem witness_FaultedBlockIsInert :
    dead.status = .faulted { kind := .unknownInstruction, pc := 0x200, word := some 0, addr := none } := by decide

/-- A `CALL` with the stack full, a `RET` with it empty, and each memory instruction one byte past the end. -/
theorem witness_EachErrorIsRaisedByItsInstructionsOnly : holdsOf (after (deep 16) 0x2300) (fun t => (record t).isSome) ∧
    holdsOf (after State.reset 0x00EE) (fun t => (record t).isSome) ∧
    holdsOf (after { State.reset with i := 0xFFF } 0xD012) (fun t => (record t).isSome) ∧
    holdsOf (after { State.reset with i := 0xFFE } 0xF033) (fun t => (record t).isSome) ∧
    holdsOf (after { State.reset with i := 0xFFF } 0xF155) (fun t => (record t).isSome) ∧
    holdsOf (after { State.reset with i := 0xFFF } 0xF165) (fun t => (record t).isSome) := by decide

theorem witness_RefusedStepChangesNothingAndMarksTheRun : ((regs [(5, 0x10)]).withFetchWord 16 0xE59E).status = .running ∧
    ((regs [(5, 0x10)]).withFetchWord 16 0xE59E).fetchInstr.toOption = some (.skp 5) ∧
    ((regs [(5, 0x10)]).withFetchWord 16 0xE5A1).fetchInstr.toOption = some (.sknp 5) ∧
    0xF < (((regs [(5, 0x10)]).withFetchWord 16 0xE59E).getV 5).toNat := by decide

/-- Both clauses: a key wait that goes on, and a step that is none. -/
theorem witness_WaitIsHeldOnlyByAWaitingKeyInstruction :
    holdsOf (after State.reset 0xF30A) (fun t => decide (t.status = .running ∧ t.wait = some State.reset.key)) ∧
    holdsOf (after State.reset 0x1200) (fun t => decide (t.status = .running ∧ t.wait = none)) := by decide

/-- A step that ends running, and one that ends faulted. -/
theorem witness_PcAfterAStepIsOneOfTheListedValues :
    holdsOf (after { State.reset with pc := 0xFFE } 0x3000) (fun t => decide (t.status = .running ∧ t.pc = 0x1002)) ∧
    holdsOf (after { State.reset with pc := 0xFFE } 0x0000) (fun t => decide ((record t).isSome ∧ t.pc = 0xFFE)) := by decide

theorem witness_CallPushesReturnAddressOrOverflows : (deep 15).sp.val < 16 ∧ (deep 16).sp.val = 16 := by decide

theorem witness_RetPopsReturnAddressOrUnderflows : (deep 16).sp.val = (15 : Fin 16).val + 1 ∧ (deep 1).sp.val = (0 : Fin 16).val + 1 ∧
    (deep 0).sp.val = 0 := by decide

/-- Sixteen nested calls from an empty stack, and one more from a full one. -/
theorem witness_NestedCallsReturnAfterTheFirstCall : (deep 0).sp.val + (List.replicate 15 (0x300 : Addr12)).length + 1 ≤ 16 ∧
    (deep 16).sp.val + ([] : List Addr12).length + 1 = 17 := by decide

theorem witness_ShiftsWriteResultAndThenBitShiftedOut : State.reset.cfg.shiftSource = .vx ∧ other.cfg.shiftSource = .vy := by decide

theorem witness_RndLoadsAnyDrawUnderTheMask : ({ State.reset with randIn := some 0xFF } : State).randIn = some 0xFF := by decide

theorem witness_OnlyRndReadsTheDraw : ∀ x nn, Instr.ldByte 0 0 ≠ .rnd x nn := by decide

/-- `I + x` at 0xFFF and at 0x1000, for both values of `INDEX_AFTER_LDST`. -/
theorem witness_RegisterBlockStoreWritesAllOrNothing : Memory.wf other.cfg other.mem = true ∧
    Memory.wf State.reset.cfg State.reset.mem = true ∧
    ({ State.reset with i := 0xFF0 } : State).indexAddr + (15 : Reg).val ≤ 0xFFF ∧
    0xFFF < ({ State.reset with i := 0xFF1 } : State).indexAddr + (15 : Reg).val ∧
    State.reset.cfg.indexAfterLdst = .unchanged ∧ other.cfg.indexAfterLdst = .addXPlus1 := by decide

theorem witness_RegisterBlockLoadReadsAllOrNothing : ({ other with i := 0xFFF } : State).indexAddr + (0 : Reg).val ≤ 0xFFF ∧
    0xFFF < ({ other with i := 0xFFF } : State).indexAddr + (1 : Reg).val := by decide

theorem witness_BcdStoreWritesThreeDigits : Memory.wf State.reset.cfg State.reset.mem = true ∧
    ({ State.reset with i := 0xFFD } : State).indexAddr + 2 ≤ 0xFFF ∧
    0xFFF < ({ State.reset with i := 0xFFE } : State).indexAddr + 2 := by decide

theorem witness_StoredRegisterBlockLoadsBack : Memory.wf State.reset.cfg State.reset.mem = true ∧
    ({ State.reset with i := 0xFF0 } : State).indexAddr + (15 : Reg).val ≤ 0xFFF ∧
    holdsOf (match exec (.ldMemVx 15) { State.reset with i := 0xFF0 } with | .next t => some t | _ => none)
      (fun t => decide (t.status = .running)) := by decide

/-- No row, the last row at 0xFFF, a row past it, and a pixel that a sprite 1-bit lands on. -/
theorem witness_DrawFlipsExactlyTheCoveredPixels : ({ State.reset with i := 0xFFF } : State).indexAddr + (1 : Nibble).toNat - 1 ≤ 0xFFF ∧
    (2 : Nibble) ≠ 0 ∧ 0xFFF < ({ State.reset with i := 0xFFF } : State).indexAddr + (2 : Nibble).toNat - 1 ∧
    spriteCovers State.reset 0 1 1 3 0 :=
  ⟨by decide, by decide, by decide, 0, 3, by decide⟩

/-- The draw keeps both coordinates, and a sprite 1-bit lands on a pixel that is off. -/
theorem witness_DrawingTwiceRestoresTheDisplay : State.reset.indexAddr + (1 : Nibble).toNat - 1 ≤ 0xFFF ∧
    holdsOf (match exec (.drw 0 1 1) State.reset with | .next t => some t | _ => none)
      (fun t => decide (t.getV 0 = State.reset.getV 0 ∧ t.getV 1 = State.reset.getV 1)) ∧
    Display.pixel State.reset.fb 3 0 = false := by decide

/-- All covered pixels on: the one 1-bit of the sprite 0x80 lands on the one pixel that is on. The first draw collides there,
so this also meets the collision clause of `DrawFlipsExactlyTheCoveredPixels`. -/
theorem witness_DrawingTwiceRestoresTheDisplay_allOn : ∃ s : State, s.indexAddr + (1 : Nibble).toNat - 1 ≤ 0xFFF ∧
    (∀ px py, spriteCovers s 0 1 1 px py → Display.pixel s.fb px py = true) ∧ spriteCovers s 0 1 1 0 0 ∧
    holdsOf (match exec (.drw 0 1 1) s with | .next t => some t | _ => none)
      (fun t => decide (t.getV 0 = s.getV 0 ∧ t.getV 1 = s.getV 1)) := by
  refine ⟨{ State.reset.setByte 0 0x80 with fb := Display.setPixel Display.clear 0 0 true }, by decide, ?_, ⟨0, 0, by decide⟩,
    by decide⟩
  rintro px py ⟨r, c, hr, hc, hx, hy, hbit⟩
  obtain rfl : r = 0 := Nat.lt_one_iff.mp hr
  have hc0 : c = 0 := by
    clear hx; revert c
    decide
  subst hc0
  obtain rfl : px = 0 := Fin.ext hx
  obtain rfl : py = 0 := Fin.ext hy
  decide

theorem witness_KeySkipsReadTheLatchOrAreRefused : ((regs [(5, 0x0F)]).getV 5).toNat = (15 : KeyCode).val ∧
    0xF < ((regs [(5, 0x10)]).getV 5).toNat := by decide

/-- A key that qualifies under each `KEY_WAIT_TRIGGER`, the lowest one, and none that does. -/
theorem witness_KeyWaitStoresLowestQualifyingKeyOrWaits :
    keyQualifies { other with key := State.reset.key.set 15 true } 15 ∧
    keyQualifies { State.reset with key := State.reset.key.set 0 true, wait := some State.reset.key } 0 ∧
    (∀ j, keyQualifies { State.reset with key := State.reset.key.set 0 true, wait := some State.reset.key } j → 0 ≤ j) ∧
    ∀ k, ¬ keyQualifies State.reset k := by
  refine ⟨.inl (by decide), .inr ⟨by decide, State.reset.key, by decide⟩, fun j _ => Fin.zero_le j, ?_⟩
  rintro k (⟨h, -⟩ | ⟨-, snap, h, -⟩)
  · exact absurd h (by decide)
  · exact absurd h (by simp [State.reset, State.resetWith])

theorem witness_KeyWaitEndsAtTheFirstPress : (State.reset.withFetchWord 16 0xF30A).status = .running ∧
    (State.reset.withFetchWord 16 0xF30A).fetchInstr.toOption = some (.ldVxK 3) ∧
    (∀ k : KeyCode, (State.reset.withFetchWord 16 0xF30A).key[k] = false) ∧ ([0] : List Byte) ≠ [] := by decide

theorem witness_NoInstructionReadsTheSoundTimer : ∀ x, Instr.ldVxDt 0 ≠ .ldStVx x := by decide

theorem witness_RegistersOutsideTheDestinationAreKept : (15 : Reg) ∉ regsWritten (.addByte 0 1) ∧
    holdsOf (match exec (.addByte 0 1) State.reset with | .next t => some t | _ => none) (fun t => decide (t.getV 15 = 0)) := by decide

theorem witness_EachStoreIsWrittenByItsInstructionsOnly :
    holdsOf (match exec (.skp 0) State.reset with | .next t => some t | _ => none) (fun t => decide (t.i = 0)) := by decide

theorem witness_StepKeepsTheInvariant : State.reset.Inv ∧
    holdsOf (after State.reset 0x1FFF) (fun t => decide (t.pc = 0xFFF)) :=
  ⟨⟨by decide, by decide, by decide⟩, by decide⟩

theorem witness_BootRunsTheFirstInstructionOfTheProgram : (List.replicate 3582 (0 : Byte)).length ≤ 3582 ∧
    decode ((0x12 : Byte) ++ (0x00 : Byte)) = some (.jp 0x200) := by
  simp only [List.length_replicate]; decide

theorem witness_LoadProgramCopiesAllOrNothing : Memory.wf State.reset.cfg State.reset.mem = true ∧
    (List.replicate 3584 (0 : Byte)).length ≤ 3584 ∧ 3584 < (List.replicate 3585 (0 : Byte)).length := by
  simp only [List.length_replicate]; decide

theorem witness_PortWriteThenReadReturnsTheByte : Memory.wf State.reset.cfg State.reset.mem = true ∧ 0xFFF ≤ 0xFFF := by decide

theorem witness_PortAccessOutOfRangeFaults : (Action.readByte 0x1000 = .readByte 0x1000 ∧ 0xFFF < 0x1000) ∧
    (Action.readWord 0xFFF = .readWord 0xFFF ∧ 0xFFF ≤ 0xFFF ∧ 0x1000 = max 0xFFF 0x1000) ∧ State.reset.status = .running ∧
    (record dead).isSome := by decide

theorem witness_OnlyResetLeavesTheFaultedState : (record (Run.start dead).state).isSome ∧
    Action.reset ∉ [Action.tickTimers, .step 0, .loadProgram [1]] := by decide

theorem witness_HaltPointIsNeverLeft : (State.reset.withFetchWord 16 0x1200).status = .running ∧
    (State.reset.withFetchWord 16 0x1200).fetchWord.toOption = some (0x1000 ||| (State.reset.withFetchWord 16 0x1200).pc) := by decide

end Sys2Proof
end

section
/-! SUPPORT. How an instruction that answers a next state ends, said once (spec 30_encoding.md R110 to R112). -/

namespace Sys2Proof.Machine

variable {s t u : State} {ins : Instr}

/-! ## The three endings of an instruction -/

/-- The instruction completes from `s`, its effect without the clearing of `wait` being `u`: one constructor for each row
of 30_encoding.md R97, with the condition under which the row completes. -/
inductive Completes (s : State) : Instr → State → Prop
  | cls : Completes s .cls (s.advance.setFb Display.clear)
  | ret (j : Fin 16) (h : s.sp.val = j.val + 1) :
      Completes s .ret { s with sp := ⟨j.val, by omega⟩, pc := s.stack[j] }
  | jp (nnn : Addr12) : Completes s (.jp nnn) (s.setPc (zext16 nnn))
  | call (nnn : Addr12) (h : s.sp.val < 16) : Completes s (.call nnn)
      { s with stack := s.stack.set s.sp.val (s.pc + 2), sp := ⟨s.sp.val + 1, by omega⟩, pc := zext16 nnn }
  | seByte (x : Reg) (nn : Byte) : Completes s (.seByte x nn) (s.advance.skipIf (decide (s.getV x = nn)))
  | sneByte (x : Reg) (nn : Byte) : Completes s (.sneByte x nn) (s.advance.skipIf (decide (s.getV x ≠ nn)))
  | seReg (x y : Reg) : Completes s (.seReg x y) (s.advance.skipIf (decide (s.getV x = s.getV y)))
  | ldByte (x : Reg) (nn : Byte) : Completes s (.ldByte x nn) (s.advance.setV x nn)
  | addByte (x : Reg) (nn : Byte) : Completes s (.addByte x nn) (s.advance.setV x (s.getV x + nn))
  | ldReg (x y : Reg) : Completes s (.ldReg x y) (s.advance.setV x (s.getV y))
  | orReg (x y : Reg) : Completes s (.orReg x y) (s.advance.setV x (s.getV x ||| s.getV y))
  | andReg (x y : Reg) : Completes s (.andReg x y) (s.advance.setV x (s.getV x &&& s.getV y))
  | xorReg (x y : Reg) : Completes s (.xorReg x y) (s.advance.setV x (s.getV x ^^^ s.getV y))
  | addReg (x y : Reg) : Completes s (.addReg x y)
      (s.advance.setResultFlag x (s.getV x + s.getV y) (carry (s.getV x) (s.getV y)))
  | sub (x y : Reg) : Completes s (.sub x y)
      (s.advance.setResultFlag x (s.getV x - s.getV y) (notBorrow (s.getV x) (s.getV y)))
  | shr (x y : Reg) : Completes s (.shr x y)
      (s.advance.setResultFlag x (s.shiftSource x y >>> 1) (shiftedOutRight (s.shiftSource x y)))
  | subn (x y : Reg) : Completes s (.subn x y)
      (s.advance.setResultFlag x (s.getV y - s.getV x) (notBorrow (s.getV y) (s.getV x)))
  | shl (x y : Reg) : Completes s (.shl x y)
      (s.advance.setResultFlag x (s.shiftSource x y <<< 1) (shiftedOutLeft (s.shiftSource x y)))
  | sneReg (x y : Reg) : Completes s (.sneReg x y) (s.advance.skipIf (decide (s.getV x ≠ s.getV y)))
  | ldI (nnn : Addr12) : Completes s (.ldI nnn) (s.advance.setI (zext16 nnn))
  | jpV0 (nnn : Addr12) : Completes s (.jpV0 nnn) (s.setPc (zext16 nnn + s.getV16 0))
  | rnd (x : Reg) (nn : Byte) : Completes s (.rnd x nn) (s.consumeRand.advance.setV x (s.rand &&& nn))
  | drw (x y : Reg) (n : Nibble) (rows : List Byte) (fb : Display) (hit : Bool)
      (hr : s.readBytes s.indexAddr n.toNat = .ok rows)
      (hd : drawSprite (s.spriteOrigin x y).1 (s.spriteOrigin x y).2 rows s.fb = (fb, hit)) :
      Completes s (.drw x y n) ((s.advance.setFb fb).setFlag hit)
  | skp (x : Reg) (k : KeyCode) (h : (s.getV x).toNat = k.val) :
      Completes s (.skp x) (s.advance.skipIf s.key[k])
  | sknp (x : Reg) (k : KeyCode) (h : (s.getV x).toNat = k.val) :
      Completes s (.sknp x) (s.advance.skipIf !s.key[k])
  | ldVxDt (x : Reg) : Completes s (.ldVxDt x) (s.advance.setV x s.dt)
  | ldVxK (x : Reg) (k : KeyCode) (h : s.qualifyingKey = some k) :
      Completes s (.ldVxK x) (s.advance.setV x (BitVec.ofNat 8 k.val))
  | ldDtVx (x : Reg) : Completes s (.ldDtVx x) { s.advance with dt := s.getV x }
  | ldStVx (x : Reg) : Completes s (.ldStVx x) { s.advance with st := s.getV x }
  | addI (x : Reg) : Completes s (.addI x) (s.advance.setI (s.i + s.getV16 x))
  | ldF (x : Reg) : Completes s (.ldF x) (s.advance.setI (glyphAddr (s.getV x)))
  | ldB (x : Reg) (h : s.indexAddr + 2 < memSize) :
      Completes s (.ldB x) (s.setBytes s.indexAddr (bcdDigits (s.getV x))).advance
  | ldMemVx (x : Reg) (h : s.indexAddr + x.val < memSize) :
      Completes s (.ldMemVx x) ((s.setBytes s.indexAddr (s.regBlock x)).advance.indexAfterLdst x)
  | ldVxMem (x : Reg) (h : s.indexAddr + x.val < memSize) :
      Completes s (.ldVxMem x)
        ((s.advance.loadRegBlock x (s.bytesAt s.indexAddr (x.val + 1))).indexAfterLdst x)

/-- How an instruction that answers a next state ends: by a fatal error, which changes `status` only; as a key wait that goes
on; or completed, with `wait` cleared (30_encoding.md R110, R112; 45_input.md R224). -/
inductive Ends (s : State) (ins : Instr) : State → Prop
  | fault (r : FaultRecord) : Ends s ins { s with status := .faulted r }
  | waiting (x : Reg) (h : ins = .ldVxK x) : Ends s ins { s with wait := some s.key }
  | done (u : State) (h : Completes s ins u) : Ends s ins { u with wait := none }

theorem ends_of_done (hc : Completes s ins u) (h : done u = .next t) : Ends s ins t := by
  cases h; exact .done u hc

theorem ends_of_raise {r : FaultRecord} (h : raise s r = .next t) : Ends s ins t := by
  cases h; exact .fault r

theorem execLdVxK_ends {x : Reg} (h : execLdVxK x s = .next t) : Ends s (.ldVxK x) t := by
  unfold execLdVxK at h
  split at h
  · exact ends_of_done (.ldVxK x _ ‹_›) h
  · cases h; exact .waiting x rfl

/-- Every next state of an instruction is one of the three endings. The branching rows are split where their `exec…` lemmas
split them. -/
theorem exec_ends (h : exec ins s = .next t) : Ends s ins t := by
  cases ins <;> simp only [exec] at h
  case call nnn =>
    by_cases hs : s.sp.val < 16
    · rw [execCall_room nnn hs] at h; exact ends_of_done (.call nnn hs) h
    · rw [execCall_full nnn (by omega)] at h; exact ends_of_raise h
  case ret =>
    by_cases hs : s.sp.val = 0
    · rw [execRet_empty hs] at h; exact ends_of_raise h
    · have hj : s.sp.val = (⟨s.sp.val - 1, by omega⟩ : Fin 16).val + 1 := by simp; omega
      rw [execRet_entry _ hj] at h; exact ends_of_done (.ret _ hj) h
  case drw x y n =>
    by_cases hm : n.toNat = 0 ∨ s.indexAddr + n.toNat ≤ memSize
    · rw [execDrw_in n hm] at h; exact ends_of_done (.drw x y n _ _ _ (State.readBytes_valid hm) rfl) h
    · rw [execDrw_out n (by omega) (by omega)] at h; exact ends_of_raise h
  case skp x =>
    by_cases hk : (s.getV x).toNat < 16
    · rw [execSkp_code ⟨_, hk⟩ rfl] at h; exact ends_of_done (.skp x _ rfl) h
    · rw [execSkp_refused (by omega)] at h; cases h
  case sknp x =>
    by_cases hk : (s.getV x).toNat < 16
    · rw [execSknp_code ⟨_, hk⟩ rfl] at h; exact ends_of_done (.sknp x _ rfl) h
    · rw [execSknp_refused (by omega)] at h; cases h
  case ldVxK x => exact execLdVxK_ends h
  case ldB x =>
    by_cases hm : s.indexAddr + 2 < memSize
    · rw [execLdB_in hm] at h; exact ends_of_done (.ldB x hm) h
    · rw [execLdB_out (by omega)] at h; exact ends_of_raise h
  case ldMemVx x =>
    by_cases hm : s.indexAddr + x.val < memSize
    · rw [execLdMemVx_in hm] at h; exact ends_of_done (.ldMemVx x hm) h
    · rw [execLdMemVx_out (by omega)] at h; exact ends_of_raise h
  case ldVxMem x =>
    by_cases hm : s.indexAddr + x.val < memSize
    · rw [execLdVxMem_in hm] at h; exact ends_of_done (.ldVxMem x hm) h
    · rw [execLdVxMem_out (by omega)] at h; exact ends_of_raise h
  all_goals exact ends_of_done (by constructor) h

/-- A part of the state that depends on neither `status` nor `wait` is kept by an instruction when completing keeps it. -/
theorem exec_frame {α : Type} (f : State → α) (hf : ∀ (u : State) st w, f { u with status := st, wait := w } = f u)
    (hc : ∀ u, Completes s ins u → f u = f s) (h : exec ins s = .next t) : f t = f s := by
  cases exec_ends h with
  | fault r => exact hf s _ _
  | waiting x hx => exact hf s _ _
  | done u hu => exact (hf u _ _).trans (hc u hu)

end Sys2Proof.Machine
end

section
/-! PROOFS. What each instruction leaves unchanged (spec 10_state.md R20 to R36): one frame lemma a store. -/

namespace Sys2Proof.Machine

variable {s t u : State} {ins : Instr}

theorem Completes.key_eq (h : Completes s ins u) : u.key = s.key := by
  cases h <;> simp

theorem Completes.cfg_eq (h : Completes s ins u) : u.cfg = s.cfg := by
  cases h <;> simp

theorem Completes.fb_eq (hcls : ins ≠ .cls) (hdrw : ∀ x y n, ins ≠ .drw x y n) (h : Completes s ins u) :
    u.fb = s.fb := by
  cases h
  case cls => exact absurd rfl hcls
  case drw => exact absurd rfl (hdrw _ _ _)
  all_goals simp

theorem Completes.mem_eq (hb : ∀ x, ins ≠ .ldB x) (hm : ∀ x, ins ≠ .ldMemVx x) (h : Completes s ins u) :
    u.mem = s.mem := by
  cases h
  case ldB => exact absurd rfl (hb _)
  case ldMemVx => exact absurd rfl (hm _)
  all_goals simp

theorem Completes.sp_eq (hcall : ∀ nnn, ins ≠ .call nnn) (hret : ins ≠ .ret) (h : Completes s ins u) :
    u.sp = s.sp := by
  cases h
  case call => exact absurd rfl (hcall _)
  case ret => exact absurd rfl hret
  all_goals simp

/-- `RET` keeps the popped cell's value (log 7), so only `CALL` writes a cell. -/
theorem Completes.stack_eq (hcall : ∀ nnn, ins ≠ .call nnn) (h : Completes s ins u) : u.stack = s.stack := by
  cases h
  case call => exact absurd rfl (hcall _)
  all_goals simp

theorem Completes.dt_eq (hdt : ∀ x, ins ≠ .ldDtVx x) (h : Completes s ins u) : u.dt = s.dt := by
  cases h
  case ldDtVx => exact absurd rfl (hdt _)
  all_goals simp

theorem Completes.st_eq (hst : ∀ x, ins ≠ .ldStVx x) (h : Completes s ins u) : u.st = s.st := by
  cases h
  case ldStVx => exact absurd rfl (hst _)
  all_goals simp

/-- `I` but by `LD I`, `ADD I` and `LD F`, and by the block transfers when `INDEX_AFTER_LDST` moves it (R183, R184). -/
theorem Completes.i_eq (hldI : ∀ nnn, ins ≠ .ldI nnn) (haddI : ∀ x, ins ≠ .addI x) (hldF : ∀ x, ins ≠ .ldF x)
    (hblock : s.cfg.indexAfterLdst = .unchanged ∨ (∀ x, ins ≠ .ldMemVx x) ∧ ∀ x, ins ≠ .ldVxMem x)
    (h : Completes s ins u) : u.i = s.i := by
  cases h
  case ldI => exact absurd rfl (hldI _)
  case addI => exact absurd rfl (haddI _)
  case ldF => exact absurd rfl (hldF _)
  case ldMemVx =>
    obtain hu | ⟨hm, -⟩ := hblock
    · simp [hu]
    · exact absurd rfl (hm _)
  case ldVxMem =>
    obtain hu | ⟨-, hm⟩ := hblock
    · simp [hu]
    · exact absurd rfl (hm _)
  all_goals simp

theorem Completes.draw_eq (hrnd : ∀ x nn, ins ≠ .rnd x nn) (h : Completes s ins u) :
    u.randIn = s.randIn ∧ u.draws = s.draws := by
  cases h
  case rnd => exact absurd rfl (hrnd _ _)
  all_goals simp

theorem Completes.byteAt_eq (hb : ∀ x, ins ≠ .ldB x) (hm : ∀ x, ins ≠ .ldMemVx x) (a : Nat) (h : Completes s ins u) :
    u.byteAt a = s.byteAt a := by
  simp only [State.byteAt, h.cfg_eq, h.mem_eq hb hm]

theorem getV_setV_of_notMem {x z : Reg} {b : Byte} (hz : z ∉ [x]) : (s.setV x b).getV z = s.getV z :=
  State.getV_setV_ne _ _ _ _ (List.ne_of_not_mem_cons hz).symm

theorem getV_setResultFlag_of_notMem {x z : Reg} {r : Byte} {b : Bool} (hz : z ∉ [x, regF]) :
    (s.setResultFlag x r b).getV z = s.getV z :=
  (getV_setV_of_notMem (List.not_mem_of_not_mem_cons hz)).trans
    (State.getV_setV_ne _ _ _ _ (List.ne_of_not_mem_cons hz).symm)

theorem Completes.getV_eq {z : Reg} (hz : z ∉ regsWritten ins) (h : Completes s ins u) : u.getV z = s.getV z := by
  cases h
  case ldByte | addByte | ldReg | orReg | andReg | xorReg | ldVxDt | ldVxK | drw => exact getV_setV_of_notMem hz
  case addReg | sub | subn | shr | shl => exact getV_setResultFlag_of_notMem hz
  case rnd => exact (getV_setV_of_notMem hz).trans (by simp)
  case ldVxMem x hx =>
    have hzx : ¬ z ≤ x := fun hle => hz (List.mem_filter.mpr ⟨List.mem_finRange z, by simpa using hle⟩)
    simp [State.getV_loadRegBlock, hzx]
  case ret | call | ldDtVx | ldStVx => rfl
  all_goals simp

/-- Settles O44: the frame of each way an instruction ends. -/
theorem registersOutsideTheDestinationAreKept : Obligations.RegistersOutsideTheDestinationAreKept := by
  unfold Obligations.RegistersOutsideTheDestinationAreKept
  intro ins s t z h hz
  exact exec_frame (·.getV z) (fun _ _ _ => rfl) (fun _ hu => hu.getV_eq hz) h

/-- Settles O45: each store by its own frame lemma about completing. -/
theorem eachStoreIsWrittenByItsInstructionsOnly : Obligations.EachStoreIsWrittenByItsInstructionsOnly := by
  unfold Obligations.EachStoreIsWrittenByItsInstructionsOnly
  intro ins s t h
  refine ⟨?key, ?cfg, ?fb, ?mem, ?stack, ?dt, ?st, ?i, ?iUnchanged, ?draw⟩
  case key => exact exec_frame (·.key) (fun _ _ _ => rfl) (fun _ hu => hu.key_eq) h
  case cfg => exact exec_frame (·.cfg) (fun _ _ _ => rfl) (fun _ hu => hu.cfg_eq) h
  case fb =>
    intro hcls hdrw
    exact exec_frame (·.fb) (fun _ _ _ => rfl) (fun _ hu => hu.fb_eq hcls hdrw) h
  case mem =>
    intro hb hm a
    exact exec_frame (·.byteAt a) (fun _ _ _ => rfl) (fun _ hu => hu.byteAt_eq hb hm a) h
  case stack =>
    intro hcall hret
    exact ⟨exec_frame (·.sp) (fun _ _ _ => rfl) (fun _ hu => hu.sp_eq hcall hret) h,
      exec_frame (·.stack) (fun _ _ _ => rfl) (fun _ hu => hu.stack_eq hcall) h⟩
  case dt =>
    intro hdt
    exact exec_frame (·.dt) (fun _ _ _ => rfl) (fun _ hu => hu.dt_eq hdt) h
  case st =>
    intro hst
    exact exec_frame (·.st) (fun _ _ _ => rfl) (fun _ hu => hu.st_eq hst) h
  case i =>
    intro hldI haddI hldF hst hld
    exact exec_frame (·.i) (fun _ _ _ => rfl) (fun _ hu => hu.i_eq hldI haddI hldF (.inr ⟨hst, hld⟩)) h
  case iUnchanged =>
    intro hcfg hldI haddI hldF
    exact exec_frame (·.i) (fun _ _ _ => rfl) (fun _ hu => hu.i_eq hldI haddI hldF (.inl hcfg)) h
  case draw =>
    intro hrnd
    exact ⟨exec_frame (·.randIn) (fun _ _ _ => rfl) (fun _ hu => (hu.draw_eq hrnd).1) h,
      exec_frame (·.draws) (fun _ _ _ => rfl) (fun _ hu => (hu.draw_eq hrnd).2) h⟩

end Sys2Proof.Machine
end

section
/-! PROOFS. No instruction reads the sound timer (spec 10_state.md R30): each operation commutes with a change of `ST`. -/

namespace Sys2Proof.Machine

variable {s : State} {ins : Instr}

/-- `ST <- b`. -/
def State.setSt (s : State) (b : Byte) : State := { s with st := b }

theorem State.setBytes_setSt (b : Byte) (a : Nat) (bs : List Byte) :
    (s.setSt b).setBytes a bs = (s.setBytes a bs).setSt b := by
  induction bs generalizing s a with
  | nil => rfl
  | cons c bs ih => exact ih (s := s.setByte a c) (a + 1)

theorem State.writeBytes_setSt (b : Byte) (a : Nat) (bs : List Byte) :
    (s.setSt b).writeBytes a bs = (s.writeBytes a bs).map (·.setSt b) := by
  unfold State.writeBytes
  cases firstInvalid a bs.length with
  | none => exact congrArg Except.ok (State.setBytes_setSt b a bs)
  | some e => rfl

theorem State.skipIf_setSt (b : Byte) (c : Bool) : (s.setSt b).skipIf c = (s.skipIf c).setSt b := by
  cases c <;> rfl

theorem State.indexAfterLdst_setSt (b : Byte) (x : Reg) :
    (s.setSt b).indexAfterLdst x = (s.indexAfterLdst x).setSt b := by
  unfold State.indexAfterLdst
  rw [show (s.setSt b).cfg = s.cfg from rfl]
  cases s.cfg.indexAfterLdst <;> rfl

theorem State.consumeRand_setSt (b : Byte) : (s.setSt b).consumeRand = s.consumeRand.setSt b := by
  unfold State.consumeRand
  rw [show (s.setSt b).randIn = s.randIn from rfl]
  cases s.randIn <;> rfl

theorem execCall_setSt (b : Byte) (nnn : Addr12) :
    execCall nnn (s.setSt b) = mapNext (·.setSt b) (execCall nnn s) := by
  by_cases hs : s.sp.val < 16
  · rw [execCall_room nnn hs, execCall_room (s := s.setSt b) nnn hs]; rfl
  · have hfull : s.sp.val = 16 := by omega
    rw [execCall_full nnn hfull, execCall_full (s := s.setSt b) nnn hfull]; rfl

theorem execRet_setSt (b : Byte) : execRet (s.setSt b) = mapNext (·.setSt b) (execRet s) := by
  by_cases hs : s.sp.val = 0
  · rw [execRet_empty hs, execRet_empty (s := s.setSt b) hs]; rfl
  · have hj : s.sp.val = (⟨s.sp.val - 1, by omega⟩ : Fin 16).val + 1 := by simp; omega
    rw [execRet_entry _ hj, execRet_entry (s := s.setSt b) _ hj]; rfl

theorem execDrw_setSt (b : Byte) (x y : Reg) (n : Nibble) :
    execDrw x y n (s.setSt b) = mapNext (·.setSt b) (execDrw x y n s) := by
  unfold execDrw
  rw [show (s.setSt b).readBytes (s.setSt b).indexAddr n.toNat = s.readBytes s.indexAddr n.toNat from rfl]
  cases s.readBytes s.indexAddr n.toNat <;> rfl

theorem execSkp_setSt (b : Byte) (x : Reg) : execSkp x (s.setSt b) = mapNext (·.setSt b) (execSkp x s) := by
  unfold execSkp
  rw [show (s.setSt b).keyCode x = s.keyCode x from rfl]
  cases s.keyCode x with
  | none => rfl
  | some k => exact congrArg done (State.skipIf_setSt (s := s.advance) b _)

theorem execSknp_setSt (b : Byte) (x : Reg) : execSknp x (s.setSt b) = mapNext (·.setSt b) (execSknp x s) := by
  unfold execSknp
  rw [show (s.setSt b).keyCode x = s.keyCode x from rfl]
  cases s.keyCode x with
  | none => rfl
  | some k => exact congrArg done (State.skipIf_setSt (s := s.advance) b _)

theorem execLdVxK_setSt (b : Byte) (x : Reg) :
    execLdVxK x (s.setSt b) = mapNext (·.setSt b) (execLdVxK x s) := by
  unfold execLdVxK
  rw [show (s.setSt b).qualifyingKey = s.qualifyingKey from rfl]
  cases s.qualifyingKey <;> rfl

theorem execLdB_setSt (b : Byte) (x : Reg) : execLdB x (s.setSt b) = mapNext (·.setSt b) (execLdB x s) := by
  unfold execLdB
  rw [State.writeBytes_setSt, show (s.setSt b).indexAddr = s.indexAddr from rfl,
    show (s.setSt b).getV x = s.getV x from rfl]
  cases s.writeBytes s.indexAddr (bcdDigits (s.getV x)) <;> rfl

theorem execLdMemVx_setSt (b : Byte) (x : Reg) :
    execLdMemVx x (s.setSt b) = mapNext (·.setSt b) (execLdMemVx x s) := by
  unfold execLdMemVx
  rw [State.writeBytes_setSt, show (s.setSt b).indexAddr = s.indexAddr from rfl,
    show (s.setSt b).regBlock x = s.regBlock x from rfl]
  cases s.writeBytes s.indexAddr (s.regBlock x) with
  | error e => rfl
  | ok t => exact congrArg done (State.indexAfterLdst_setSt (s := t.advance) b x)

theorem execLdVxMem_setSt (b : Byte) (x : Reg) :
    execLdVxMem x (s.setSt b) = mapNext (·.setSt b) (execLdVxMem x s) := by
  unfold execLdVxMem
  rw [show (s.setSt b).readBytes (s.setSt b).indexAddr (x.val + 1) = s.readBytes s.indexAddr (x.val + 1) from rfl]
  cases s.readBytes s.indexAddr (x.val + 1) with
  | error e => rfl
  | ok bs => exact congrArg done (State.indexAfterLdst_setSt (s := s.advance.loadRegBlock x bs) b x)

theorem execRnd_setSt (b : Byte) (x : Reg) (nn : Byte) :
    execRnd x nn (s.setSt b) = mapNext (·.setSt b) (execRnd x nn s) := by
  unfold execRnd
  rw [State.consumeRand_setSt]; rfl

theorem exec_setSt (b : Byte) (hst : ∀ x, ins ≠ .ldStVx x) :
    exec ins (s.setSt b) = mapNext (·.setSt b) (exec ins s) := by
  cases ins
  case ldStVx x => exact absurd rfl (hst x)
  case seByte | sneByte | seReg | sneReg => exact congrArg done (State.skipIf_setSt (s := s.advance) b _)
  case call nnn => exact execCall_setSt b nnn
  case ret => exact execRet_setSt b
  case drw x y n => exact execDrw_setSt b x y n
  case rnd x nn => exact execRnd_setSt b x nn
  case skp x => exact execSkp_setSt b x
  case sknp x => exact execSknp_setSt b x
  case ldVxK x => exact execLdVxK_setSt b x
  case ldB x => exact execLdB_setSt b x
  case ldMemVx x => exact execLdMemVx_setSt b x
  case ldVxMem x => exact execLdVxMem_setSt b x
  all_goals rfl

/-- Settles O43: every operation but `LD ST, Vx` commutes with a change of `ST`, and `LD ST, Vx` overwrites it. -/
theorem noInstructionReadsTheSoundTimer : Obligations.NoInstructionReadsTheSoundTimer := by
  unfold Obligations.NoInstructionReadsTheSoundTimer
  refine fun ins s b => ⟨exec_setSt b, ?_⟩
  rintro ⟨x, rfl⟩
  rfl

end Sys2Proof.Machine
end

section
/-! PROOFS. `wait` and `PC` after a step of a running block (spec 10_state.md R26, R40). -/

namespace Sys2Proof.Machine

variable {s t u : State} {ins : Instr}

/-- A step that ends running ran a fetched instruction, which completed or goes on waiting for a key. -/
theorem step_running (h : step s = .next t) (ht : t.status = .running) : ∃ ins, s.fetchInstr = .ok ins ∧
    ((∃ x, ins = .ldVxK x ∧ t = { s with wait := some s.key }) ∨
      ∃ u, Completes s ins u ∧ t = { u with wait := none }) := by
  obtain ⟨-, ⟨r, -, rfl⟩ | ⟨ins, hf, he⟩⟩ := step_next h
  · cases ht
  · refine ⟨ins, hf, ?_⟩
    cases exec_ends he with
    | fault r => cases ht
    | waiting x hx => exact .inl ⟨x, hx, rfl⟩
    | done u hu => exact .inr ⟨u, hu, rfl⟩

/-- A step that ends faulted changed `status` only (30_encoding.md R112). -/
theorem step_faults {r : FaultRecord} (h : step s = .next t) (ht : t.status = .faulted r) :
    t = { s with status := .faulted r } := by
  obtain ⟨hs, ⟨r', -, rfl⟩ | ⟨ins, -, he⟩⟩ := step_next h
  · cases ht; rfl
  · obtain hst | ⟨r', -, rfl⟩ := exec_next_status ins he
    · rw [hst, hs] at ht; cases ht
    · cases ht; rfl

/-- Settles O15: a completed instruction clears `wait`, and the only other ending that stays running is the key wait. -/
theorem waitIsHeldOnlyByAWaitingKeyInstruction : Obligations.WaitIsHeldOnlyByAWaitingKeyInstruction := by
  unfold Obligations.WaitIsHeldOnlyByAWaitingKeyInstruction
  intro s t _ h ht
  obtain ⟨ins, hf, ⟨x, rfl, rfl⟩ | ⟨u, -, rfl⟩⟩ := step_running h ht
  · exact .inr ⟨rfl, rfl, x, hf⟩
  · exact .inl rfl

/-! ## `PC` after an instruction completes -/

theorem toNat_zext16 (nnn : Addr12) : (zext16 nnn).toNat = nnn.toNat := by
  have := nnn.isLt
  simp only [zext16, BitVec.toNat_setWidth]; omega

theorem toNat_zext16_add_getV16 (nnn : Addr12) (x : Reg) :
    (zext16 nnn + s.getV16 x).toNat = nnn.toNat + (s.getV x).toNat := by
  have := nnn.isLt
  have := (s.getV x).isLt
  simp only [BitVec.toNat_add, toNat_zext16, State.getV16, BitVec.toNat_setWidth]; omega

theorem pc_advance_skipIf (b : Bool) : (s.advance.skipIf b).pc = if b then s.pc + 4 else s.pc + 2 := by
  cases b
  · rfl
  · simp only [State.skipIf_pc, State.advance_pc, BitVec.add_assoc]; rfl

theorem pc_advance_skipIf_not (b : Bool) : (s.advance.skipIf !b).pc = if b then s.pc + 2 else s.pc + 4 := by
  cases b <;> exact pc_advance_skipIf _

/-- Settles O16: the value of `PC` where each instruction completes. -/
theorem pcAfterAStepIsOneOfTheListedValues : Obligations.PcAfterAStepIsOneOfTheListedValues := by
  unfold Obligations.PcAfterAStepIsOneOfTheListedValues
  intro s t _ h
  refine ⟨fun ht => ?_, fun r hr => by rw [step_faults h hr]⟩
  obtain ⟨ins, hf, ⟨x, rfl, rfl⟩ | ⟨u, hu, rfl⟩⟩ := step_running h ht
  · exact ⟨_, hf, rfl⟩
  · refine ⟨ins, hf, ?_⟩
    cases hu
    case jp | call => exact toNat_zext16 _
    case jpV0 nnn => exact toNat_zext16_add_getV16 nnn 0
    case ret j hj => exact ⟨j, hj.symm, rfl⟩
    case seByte | seReg | sneByte | sneReg => exact (pc_advance_skipIf _).trans (by simp)
    case skp x k hk => exact ⟨k, hk.symm, pc_advance_skipIf _⟩
    case sknp x k hk => exact ⟨k, hk.symm, pc_advance_skipIf_not _⟩
    all_goals simp

end Sys2Proof.Machine
end

section
/-! PROOFS. The invariant of the block, along steps and along every run (spec 10_state.md R27, R50). -/

namespace Sys2Proof.Machine

variable {s t u : State} {ins : Instr}

/-- Settles O46: nothing is listed in memory and nothing is on the stack, and `PC` is 0x200. -/
theorem resetSatisfiesTheInvariant : Obligations.ResetSatisfiesTheInvariant := by
  unfold Obligations.ResetSatisfiesTheInvariant
  intro c
  have hpc : (0x200 : Word).toNat ≤ maxPc := by decide
  exact { mem := rfl, pc := hpc, stack := fun j hj => absurd hj (Nat.not_lt_zero _) }

/-- Bytes written inside memory keep the invariant. -/
theorem State.Inv.setBytes {addr : Nat} {bs : List Byte} (h : s.Inv) (hr : addr + bs.length ≤ memSize) :
    (s.setBytes addr bs).Inv where
  mem := by rw [State.setBytes_cfg]; exact State.wf_setBytes h.mem hr
  pc := by rw [State.setBytes_pc]; exact h.pc
  stack := by simpa only [State.setBytes_sp, State.setBytes_stack] using h.stack

theorem Completes.mem_wf (hw : Memory.wf s.cfg s.mem = true) (h : Completes s ins u) :
    Memory.wf u.cfg u.mem = true := by
  rw [h.cfg_eq]
  cases h
  case ldB x hx => exact State.wf_setBytes hw (by simp; omega)
  case ldMemVx x hx => simpa using State.wf_setBytes (bs := s.regBlock x) hw (by simp; omega)
  all_goals simpa using hw

/-- The pre-advance of a fetched instruction does not wrap: the fetch was below 0xFFF. -/
theorem toNat_pc_add_two (hfetch : s.pc.toNat < 0xFFF) : (s.pc + 2).toNat = s.pc.toNat + 2 := by bv_omega

/-- `PC` stays at most 0x10FE: a jump adds at most 0xFF to a 12-bit address, a return address is at most 0x1000, and a skip
adds 4 to an address the fetch reached (10_state.md R27). -/
theorem Completes.pc_le (hi : s.Inv) (hfetch : s.pc.toNat < 0xFFF) (h : Completes s ins u) : u.pc.toNat ≤ maxPc := by
  have hnext : (s.pc + 2).toNat ≤ maxPc := by
    rw [toNat_pc_add_two hfetch, maxPc]; omega
  have hskip (b : Bool) : (s.advance.skipIf b).pc.toNat ≤ maxPc := by
    rw [pc_advance_skipIf]
    cases b
    · exact hnext
    · have hfour : (s.pc + 4).toNat = s.pc.toNat + 4 := by bv_omega
      rw [if_pos rfl, hfour, maxPc]; omega
  cases h
  case jp nnn =>
    have := nnn.isLt
    simp only [State.setPc_pc, toNat_zext16, maxPc]; omega
  case call nnn hs =>
    have := nnn.isLt
    simp only [toNat_zext16, maxPc]; omega
  case jpV0 nnn =>
    have := nnn.isLt
    have := (s.getV 0).isLt
    simp only [State.setPc_pc, toNat_zext16_add_getV16, maxPc]; omega
  case ret j hj => exact (hi.stack j (by omega)).trans (by decide)
  case seByte | sneByte | seReg | sneReg | skp | sknp => exact hskip _
  all_goals simpa using hnext

/-- A pushed return address is `PC + 2` of a fetched `CALL`, at most 0x1000 (40_control_flow.md R123). -/
theorem Completes.stack_le (hi : s.Inv) (hfetch : s.pc.toNat < 0xFFF) (h : Completes s ins u) (j : Fin 16)
    (hj : j.val < u.sp.val) : (u.stack[j]).toNat ≤ maxReturn := by
  cases h
  case call nnn hs =>
    simp only [Fin.getElem_fin, Vector.getElem_set]
    split
    · rw [toNat_pc_add_two hfetch, maxReturn]; omega
    · exact hi.stack j (by simp only at hj; omega)
  case ret k hk => exact hi.stack j (by simp only at hj; omega)
  all_goals simpa using hi.stack j (by simpa using hj)

theorem Completes.keeps_inv (hi : s.Inv) (hfetch : s.pc.toNat < 0xFFF) (h : Completes s ins u) : u.Inv where
  mem := h.mem_wf hi.mem
  pc := h.pc_le hi hfetch
  stack := h.stack_le hi hfetch

/-- An instruction fetched inside memory keeps the invariant, however it ends. -/
theorem exec_keeps_inv (hi : s.Inv) (hfetch : s.pc.toNat < 0xFFF) (h : exec ins s = .next t) : t.Inv := by
  cases exec_ends h with
  | fault r => exact ⟨hi.mem, hi.pc, hi.stack⟩
  | waiting x hx => exact ⟨hi.mem, hi.pc, hi.stack⟩
  | done u hu =>
    obtain ⟨hmem, hpc, hstack⟩ := hu.keeps_inv hi hfetch
    exact ⟨hmem, hpc, hstack⟩

/-- Settles O47: a failed fetch changes `status` only, and a fetched instruction was read below 0xFFF. -/
theorem stepKeepsTheInvariant : Obligations.StepKeepsTheInvariant := by
  unfold Obligations.StepKeepsTheInvariant
  intro s t hi h
  obtain ⟨-, ⟨r, -, rfl⟩ | ⟨ins, hf, he⟩⟩ := step_next h
  · exact ⟨hi.mem, hi.pc, hi.stack⟩
  · obtain ⟨w, hw, -⟩ := State.fetchInstr_ok hf
    exact exec_keeps_inv hi (State.fetchWord_ok hw).1 he

/-! ## The actions of the host (10_state.md R50) -/

theorem resetAction_inv : s.resetAction.Inv := by
  obtain ⟨hmem, hpc, hstack⟩ := resetSatisfiesTheInvariant s.cfg
  exact ⟨hmem, hpc, hstack⟩

theorem loadProgram_keeps_inv (hi : s.Inv) (bytes : List Byte) : (s.loadProgram bytes).1.Inv := by
  unfold State.loadProgram
  split
  · exact hi
  · rename_i hlen
    refine hi.setBytes ?_
    simp only [programMax, programBase, memSize] at *; omega

theorem stepResult_keeps_inv (hi : s.Inv) {o : Outcome} (ho : ∀ t, o = .next t → t.Inv) : (stepResult s o).1.Inv := by
  unfold stepResult
  split
  · obtain ⟨hmem, hpc, hstack⟩ := ho _ rfl
    split <;> exact ⟨hmem, hpc, hstack⟩
  · exact hi
  · exact hi

theorem stepAction_keeps_inv (hi : s.Inv) (rand : Byte) : (s.stepAction rand).1.Inv :=
  stepResult_keeps_inv hi fun t ht =>
    stepKeepsTheInvariant { s with randIn := some rand } t ⟨hi.mem, hi.pc, hi.stack⟩ ht

theorem portFault_keeps_inv (hi : s.Inv) (e : Nat) : (s.portFault e).1.Inv := by
  unfold State.portFault
  dsimp only
  split
  · exact ⟨hi.mem, hi.pc, hi.stack⟩
  · exact hi

theorem readByteAction_keeps_inv (hi : s.Inv) (addr : Nat) : (s.readByteAction addr).1.Inv := by
  unfold State.readByteAction
  split
  · exact portFault_keeps_inv hi _
  · exact hi

theorem readWordAction_keeps_inv (hi : s.Inv) (addr : Nat) : (s.readWordAction addr).1.Inv := by
  unfold State.readWordAction
  split
  · exact portFault_keeps_inv hi _
  · exact hi

theorem writeByteAction_keeps_inv (hi : s.Inv) (addr : Nat) (v : Byte) : (s.writeByteAction addr v).1.Inv := by
  unfold State.writeByteAction
  split
  · exact portFault_keeps_inv hi _
  · rename_i t ht
    obtain ⟨rfl, hempty | hr⟩ := State.writeBytes_ok ht
    · simp [bigEndianBytes] at hempty
    · exact hi.setBytes hr

/-- Every action of the host keeps the invariant. -/
theorem act_keeps_inv (a : Action) (hi : s.Inv) : (act a s).1.Inv := by
  cases a with
  | reset => exact resetAction_inv
  | loadProgram bytes => exact loadProgram_keeps_inv hi bytes
  | step rand => exact stepAction_keeps_inv hi rand
  | tickTimers => exact ⟨hi.mem, hi.pc, hi.stack⟩
  | setKey code pressed => exact ⟨hi.mem, hi.pc, hi.stack⟩
  | readByte addr => exact readByteAction_keeps_inv hi addr
  | writeByte addr v => exact writeByteAction_keeps_inv hi addr v
  | readWord addr => exact readWordAction_keeps_inv hi addr

/-- Settles O48: induction on the list of actions, each of which keeps the invariant. -/
theorem everyRunKeepsTheInvariant : Obligations.EveryRunKeepsTheInvariant := by
  unfold Obligations.EveryRunKeepsTheInvariant
  intro as
  induction as with
  | nil => exact fun run hi => hi
  | cons a as ih => exact fun run hi => ih (run.act a) (act_keeps_inv a hi)

end Sys2Proof.Machine
end

section
/-! PROOFS. The decoder gives back every encoded instruction (spec 30_encoding.md R95), and a word is the join of the two bytes
that hold it (20_memory.md R66). -/

namespace Sys2Proof

/-- The opcode table lists the rows in the order of the constructors, and an encoded instruction is in its own row. -/
theorem exists_row_of_encode (i : Instr) : ∃ r, opcodeTable[i.ctorIdx]? = some r ∧
    encode i &&& r.mask = r.pattern ∧ r.build (encode i) = i := by
  cases i
  case cls | ret => exact ⟨_, rfl, rfl, rfl⟩
  case jp | call | ldI | jpV0 => exact ⟨_, rfl, encodeAddr_and _ _, by simp [encode]⟩
  case seByte | sneByte | ldByte | addByte | rnd => exact ⟨_, rfl, encodeXNN_and_op _ _ _, by simp [encode]⟩
  case drw => exact ⟨_, rfl, encodeXYN_and_op _ _ _ _, by simp [encode]⟩
  case seReg | sneReg | ldReg | orReg | andReg | xorReg | addReg | sub | shr | subn | shl =>
    exact ⟨_, rfl, encodeXYN_and_sub _ _ _ _, by simp [encode]⟩
  case skp | sknp | ldVxDt | ldVxK | ldDtVx | ldStVx | addI | ldF | ldB | ldMemVx | ldVxMem =>
    exact ⟨_, rfl, encodeXNN_and_sub _ _ _, by simp [encode]⟩

theorem decode_encode (i : Instr) : decode (encode i) = some i := by
  obtain ⟨r, hr, hm, hb⟩ := exists_row_of_encode i
  rw [decode_of_mem (List.mem_of_getElem? hr) (beq_iff_eq.mpr hm), hb]

@[simp] theorem tableWord_toNat (w : Word) : tableWord 16 w.toNat = w := by
  rw [tableWord, Nat.mod_eq_of_lt w.isLt, BitVec.ofNat_toNat, BitVec.setWidth_eq]

theorem highByte_append_lowByte (w : Word) : w.extractLsb' 8 8 ++ w.extractLsb' 0 8 = w := by
  refine BitVec.eq_of_getLsbD_eq fun k hk => ?_
  rw [BitVec.getLsbD_append]
  split
  · simp [*]
  · simp [show k - 8 < 8 by omega, show 8 + (k - 8) = k by omega]

end Sys2Proof
end

section
/-! PROOFS. The fetch, and an instruction placed where it reads (spec 20_memory.md R66, R68, R78; 60_exceptions.md R253, R257). -/

namespace Sys2Proof.Machine

variable {s : State} {w : Word}

/-- Settles O9: this is the model's law of the fetch inside memory. -/
theorem fetchIsBigEndianAtAnyAlignment : Obligations.FetchIsBigEndianAtAnyAlignment := by
  unfold Obligations.FetchIsBigEndianAtAnyAlignment
  exact fun s h => State.fetchWord_valid h

theorem step_of_fetch_error {r : FaultRecord} (hs : s.status = .running) (hf : s.fetchInstr = .error r) :
    step s = .next { s with status := .faulted r } := by
  simp [step, hs, hf]

theorem State.fetchInstr_invalid (h : 0xFFF ≤ s.pc.toNat) : s.fetchInstr =
    .error { kind := .memoryFault, pc := s.pc, word := none, addr := some (max s.pc.toNat 0x1000) } := by
  simp [State.fetchInstr, State.fetchWord_invalid h]

theorem State.fetchInstr_unknown (hw : s.fetchWord = .ok w) (hd : decode w = none) : s.fetchInstr =
    .error { kind := .unknownInstruction, pc := s.pc, word := some w, addr := none } := by
  simp [State.fetchInstr, hw, hd]

/-- Settles O8: the record of the failed fetch or decode, by the place of `PC`, is what the step takes. -/
theorem fetchAndDecodeErrorsAreRaisedInOrder : Obligations.FetchAndDecodeErrorsAreRaisedInOrder := by
  unfold Obligations.FetchAndDecodeErrorsAreRaisedInOrder
  refine fun s hs => ⟨fun hp => ?above, fun hp => ?last, fun hp hd => ?unknown⟩
  case above =>
    rw [step_of_fetch_error hs (State.fetchInstr_invalid (by omega)), max_eq_left (by omega)]
  case last =>
    rw [step_of_fetch_error hs (State.fetchInstr_invalid (by omega)), max_eq_right (by omega)]
  case unknown =>
    exact step_of_fetch_error hs (State.fetchInstr_unknown (State.fetchWord_valid hp) hd)

/-- A word placed below 0xFFF is placed whole. -/
theorem State.placeWord_eq (hp : s.pc.toNat ≤ 0xFFE) :
    s.placeWord w = { s.setBytes s.pc.toNat (bytesOfWord w) with status := .running } := by
  have hlen : (bytesOfWord w).length ≤ memSize - s.pc.toNat := by
    simp only [bytesOfWord, List.length_cons, List.length_nil, memSize]; omega
  rw [State.placeWord, List.take_of_length_le hlen]

theorem State.fetchWord_placeWord (hw : Memory.wf s.cfg s.mem = true) (hp : s.pc.toNat ≤ 0xFFE) :
    (s.placeWord w).fetchWord = .ok w := by
  have hr : s.pc.toNat + (bytesOfWord w).length ≤ memSize := by
    simp only [bytesOfWord, List.length_cons, List.length_nil, memSize]; omega
  have hpc : (s.placeWord w).pc = s.pc := State.setBytes_pc _ _ _
  have hhi : (s.placeWord w).byteAt s.pc.toNat = w.extractLsb' 8 8 := by
    rw [State.placeWord_eq hp]; exact State.byteAt_setBytes_inside hw hr (k := 0) (by simp [bytesOfWord])
  have hlo : (s.placeWord w).byteAt (s.pc.toNat + 1) = w.extractLsb' 0 8 := by
    rw [State.placeWord_eq hp]; exact State.byteAt_setBytes_inside hw hr (k := 1) (by simp [bytesOfWord])
  rw [State.fetchWord_valid (by rw [hpc]; omega), hpc, hhi, hlo, highByte_append_lowByte]

/-- Settles O7: the fetch reads the placed word, which decodes to the instruction it encodes. -/
theorem placedWordIsTheInstructionThatRuns : Obligations.PlacedWordIsTheInstructionThatRuns := by
  unfold Obligations.PlacedWordIsTheInstructionThatRuns
  intro s i hw hp
  rw [State.withFetchWord, tableWord_toNat]
  exact step_of_fetch rfl (State.fetchInstr_of_decode (State.fetchWord_placeWord hw hp) (decode_encode i))

end Sys2Proof.Machine
end

section
/-! PROOFS. The host's memory port: reads and writes inside memory, and the fault outside (spec 20_memory.md R62 to R66, R72;
60_exceptions.md R254). -/

namespace Sys2Proof.Machine

variable {s : State} {a n val : Nat} {v : Byte}

/-! ## The checked accesses of the port -/

theorem State.memRead_byte (h : a ≤ 0xFFF) : s.memRead a 1 = .ok (s.byteAt a).toNat := by
  have hr : s.readBytes a 1 = .ok (s.bytesAt a 1) := State.readBytes_valid (.inr (by unfold memSize; omega))
  simp [State.memRead, hr, State.bytesAt, bigEndian, Except.map]

theorem State.memRead_word (h : a < 0xFFF) : s.memRead a 2 = .ok (s.byteAt a ++ s.byteAt (a + 1)).toNat := by
  have hr : s.readBytes a 2 = .ok (s.bytesAt a 2) := State.readBytes_valid (.inr (by unfold memSize; omega))
  have hlo := (s.byteAt (a + 1)).isLt
  rw [BitVec.toNat_append, Nat.shiftLeft_eq, Nat.mul_comm, ← Nat.two_pow_add_eq_or_of_lt hlo]
  simp [State.memRead, hr, State.bytesAt, List.range_succ, bigEndian, Except.map, Nat.mul_comm]

theorem State.memRead_invalid (h0 : 0 < n) (h : memSize < a + n) : s.memRead a n = .error (max a memSize) := by
  simp [State.memRead, State.readBytes_invalid h0 h, Except.map]

theorem bigEndianBytes_one (v : Byte) : bigEndianBytes 1 v.toNat = [v] := by
  simp [bigEndianBytes]

theorem State.memWrite_byte (h : a ≤ 0xFFF) : s.memWrite a 1 v.toNat = .ok (s.setByte a v) := by
  rw [State.memWrite, bigEndianBytes_one]
  exact State.writeBytes_valid (.inr (by simp only [List.length_cons, List.length_nil, memSize]; omega))

theorem State.memWrite_invalid (h0 : 0 < n) (h : memSize < a + n) : s.memWrite a n val = .error (max a memSize) := by
  have hlen : (bigEndianBytes n val).length = n := by simp [bigEndianBytes]
  exact State.writeBytes_invalid (by omega) (by omega)

/-! ## The actions inside memory -/

theorem act_readByte (h : a ≤ 0xFFF) : act (.readByte a) s = (s, .byte (s.byteAt a)) := by
  simp [act, State.readByteAction, State.memRead_byte h]

theorem act_readWord (h : a < 0xFFF) : act (.readWord a) s = (s, .word (s.byteAt a ++ s.byteAt (a + 1))) := by
  simp only [act, State.readWordAction, State.memRead_word h, BitVec.ofNat_toNat, BitVec.setWidth_eq]

theorem act_writeByte (h : a ≤ 0xFFF) : act (.writeByte a v) s = (s.setByte a v, .ok) := by
  simp [act, State.writeByteAction, State.memWrite_byte h]

/-- Settles O54: the word read of the port, inside memory. -/
theorem portWordReadIsBigEndian : Obligations.PortWordReadIsBigEndian := by
  unfold Obligations.PortWordReadIsBigEndian
  exact fun s a h => act_readWord h

/-- Settles O53: the write sets one byte of memory, which then reads as written while every other byte reads as before. -/
theorem portWriteThenReadReturnsTheByte : Obligations.PortWriteThenReadReturnsTheByte := by
  unfold Obligations.PortWriteThenReadReturnsTheByte
  intro s a v hw ha
  have hself : (s.setByte a v).byteAt a = v := Memory.read_write_self hw
  refine ⟨s.setByte a v, act_writeByte ha, ?_, fun b hb => Memory.read_write_ne hb, rfl⟩
  rw [act_readByte ha, hself]

/-! ## The actions outside memory -/

theorem State.portFault_running {e : Nat} (hs : s.status = .running) : s.portFault e =
    ({ s with status := .faulted { kind := .memoryFault, pc := s.pc, word := none, addr := some e } },
      .fault { kind := .memoryFault, pc := s.pc, word := none, addr := some e }) := by
  simp [State.portFault, hs]

theorem State.portFault_faulted {e : Nat} {r : FaultRecord} (hs : s.status = .faulted r) : s.portFault e =
    (s, .fault { kind := .memoryFault, pc := s.pc, word := none, addr := some e }) := by
  simp [State.portFault, hs]

theorem act_readByte_invalid (h : 0xFFF < a) : act (.readByte a) s = s.portFault a := by
  simp only [act, State.readByteAction, State.memRead_invalid (s := s) (a := a) (n := 1) (by omega) (by unfold memSize; omega),
    max_eq_left (show memSize ≤ a from h)]

theorem act_writeByte_invalid (h : 0xFFF < a) : act (.writeByte a v) s = s.portFault a := by
  simp only [act, State.writeByteAction, State.memWrite_invalid (s := s) (a := a) (n := 1) (by omega) (by unfold memSize; omega),
    max_eq_left (show memSize ≤ a from h)]

theorem act_readWord_invalid (h : 0xFFF ≤ a) : act (.readWord a) s = s.portFault (max a 0x1000) := by
  simp only [act, State.readWordAction, State.memRead_invalid (s := s) (a := a) (n := 2) (by omega) (by unfold memSize; omega),
    memSize]

/-- Settles O55: each of the three accesses out of range is the port's fault at the lowest invalid address, which a running block
enters and a faulted one does not. -/
theorem portAccessOutOfRangeFaults : Obligations.PortAccessOutOfRangeFaults := by
  unfold Obligations.PortAccessOutOfRangeFaults
  intro s a v act1 e h
  have hact : act act1 s = s.portFault e := by
    obtain ⟨rfl, ha, rfl⟩ | ⟨rfl, ha, rfl⟩ | ⟨rfl, ha, rfl⟩ := h
    · exact act_readByte_invalid ha
    · exact act_writeByte_invalid ha
    · exact act_readWord_invalid ha
  rw [hact]
  exact ⟨State.portFault_running, fun r => State.portFault_faulted⟩

end Sys2Proof.Machine
end

section
/-! PROOFS. A register block stored to memory loads back (spec 20_memory.md R65; 43_memory_index.md R183, R184). -/

namespace Sys2Proof.Machine

variable {s : State} {x k : Reg}

theorem State.getD_bytesAt {a n j : Nat} (h : j < n) : (s.bytesAt a n).getD j 0 = s.byteAt (a + j) := by
  simp [State.bytesAt, h]

theorem State.getElem_regBlock (h : k.val < (s.regBlock x).length) : (s.regBlock x)[k.val] = s.getV k := by
  simp [State.regBlock, State.getV]

/-- Byte `k` of a stored register block is `V[k]`. -/
theorem State.byteAt_setBytes_regBlock (hw : Memory.wf s.cfg s.mem = true) (hr : s.indexAddr + x.val < memSize) (hk : k ≤ x) :
    (s.setBytes s.indexAddr (s.regBlock x)).byteAt (s.indexAddr + k.val) = s.getV k := by
  have hlen : k.val < (s.regBlock x).length := by rw [length_regBlock]; exact Nat.lt_succ_of_le hk
  rw [State.byteAt_setBytes_inside hw (by rw [length_regBlock]; omega) hlen, State.getElem_regBlock]

/-- What `LD Vx, [I]` leaves in each register, inside memory. -/
theorem execLdVxMem_getV (h : s.indexAddr + x.val < memSize) : ∃ u, execLdVxMem x s = .next u ∧
    ∀ k : Reg, u.getV k = if k ≤ x then s.byteAt (s.indexAddr + k.val) else s.getV k := by
  refine ⟨_, execLdVxMem_in h, fun k => ?_⟩
  refine (State.getV_indexAfterLdst _ x k).trans ?_
  rw [State.getV_loadRegBlock, State.getV_advance]
  split
  · rename_i hk; exact State.getD_bytesAt (Nat.lt_succ_of_le hk)
  · rfl

/-- Settles O34: the load reads the bytes at `I`, where the store put the registers. -/
theorem storedRegisterBlockLoadsBack : Obligations.StoredRegisterBlockLoadsBack := by
  unfold Obligations.StoredRegisterBlockLoadsBack
  intro x s t hw ha hstore v
  have hr : s.indexAddr + x.val < memSize := Nat.lt_succ_of_le ha
  have ht : t = { (s.setBytes s.indexAddr (s.regBlock x)).advance.indexAfterLdst x with wait := none } := by
    rw [exec, execLdMemVx_in hr, done_eq] at hstore
    cases hstore; rfl
  have hbyte (b : Nat) : State.byteAt { t with v := v, i := s.i } b =
      (s.setBytes s.indexAddr (s.regBlock x)).byteAt b := by
    rw [ht]; exact State.byteAt_indexAfterLdst _ x b
  obtain ⟨u, hu, hv⟩ := execLdVxMem_getV (s := { t with v := v, i := s.i }) hr
  refine ⟨u, hu, fun k => ?_⟩
  rw [hv k, hbyte]
  split
  · exact State.byteAt_setBytes_regBlock hw hr ‹_›
  · rfl

end Sys2Proof.Machine
end

section
/-! PROOFS. The words of the opcode table (spec 30_encoding.md R91, R95 to R98): a word is the assembly of its fields, so a
match under a mask of R97 says which values the fixed fields have, and nothing else. The masks and the matches are spelled as
`simp` leaves literals. -/

namespace Sys2Proof

variable {w p : Word}

/-! ## A word and its fields -/

/-- The operation nibble, `w[15:12]`, which every row of the table fixes. -/
def fieldOp (w : Word) : Nibble := w.extractLsb' 12 4

theorem ofFin_fieldX (w : Word) : (BitVec.ofFin (fieldX w) : Nibble) = w.extractLsb' 8 4 := rfl

theorem ofFin_fieldY (w : Word) : (BitVec.ofFin (fieldY w) : Nibble) = w.extractLsb' 4 4 := rfl

theorem encodeAddr_fields (w : Word) : encodeAddr (fieldOp w) (fieldNNN w) = w := by
  refine BitVec.eq_of_getLsbD_eq fun k hk => ?_
  simp only [getLsbD_encodeAddr, fieldOp, fieldNNN, BitVec.getLsbD_extractLsb']
  interval_cases k <;> simp

theorem encodeXNN_fields (w : Word) : encodeXNN (fieldOp w) (fieldX w) (fieldNN w) = w := by
  refine BitVec.eq_of_getLsbD_eq fun k hk => ?_
  simp only [getLsbD_encodeXNN, fieldOp, ofFin_fieldX, fieldNN, BitVec.getLsbD_extractLsb']
  interval_cases k <;> simp

theorem encodeXYN_fields (w : Word) : encodeXYN (fieldOp w) (fieldX w) (fieldY w) (fieldN w) = w := by
  refine BitVec.eq_of_getLsbD_eq fun k hk => ?_
  simp only [getLsbD_encodeXYN, fieldOp, ofFin_fieldX, ofFin_fieldY, fieldN, BitVec.getLsbD_extractLsb']
  interval_cases k <;> simp

theorem fieldOp_encodeXNN (op : Nibble) (x : Reg) (nn : Byte) : fieldOp (encodeXNN op x nn) = op := by
  refine BitVec.eq_of_getLsbD_eq fun k hk => ?_
  simp only [fieldOp, BitVec.getLsbD_extractLsb', getLsbD_encodeXNN]
  simp [hk, show ¬ 12 + k < 8 by omega]

theorem fieldOp_encodeXYN (op : Nibble) (x y : Reg) (n : Nibble) : fieldOp (encodeXYN op x y n) = op := by
  refine BitVec.eq_of_getLsbD_eq fun k hk => ?_
  simp only [fieldOp, BitVec.getLsbD_extractLsb', getLsbD_encodeXYN]
  simp [hk, show ¬ 12 + k < 4 by omega, show ¬ 12 + k < 8 by omega]

theorem ushiftRight_eq_fieldOp (w : Word) : w >>> 12 = (fieldOp w).setWidth 16 := by
  refine BitVec.eq_of_toNat_eq ?_
  simp only [BitVec.toNat_ushiftRight, fieldOp, BitVec.toNat_setWidth, BitVec.extractLsb'_toNat]
  omega

/-! ## What each mask of the table keeps -/

theorem and_opMask (w : Word) : w &&& 0xF000#16 = encodeXNN (fieldOp w) 0 0 :=
  (congrArg (· &&& 0xF000#16) (encodeXNN_fields w)).symm.trans (encodeXNN_and_op _ _ _)

theorem and_subMaskN (w : Word) : w &&& 0xF00F#16 = encodeXYN (fieldOp w) 0 0 (fieldN w) :=
  (congrArg (· &&& 0xF00F#16) (encodeXYN_fields w)).symm.trans (encodeXYN_and_sub _ _ _ _)

theorem and_subMaskNN (w : Word) : w &&& 0xF0FF#16 = encodeXNN (fieldOp w) 0 (fieldNN w) :=
  (congrArg (· &&& 0xF0FF#16) (encodeXNN_fields w)).symm.trans (encodeXNN_and_sub _ _ _)

theorem fieldOp_of_match (h : w &&& 0xF000#16 = p) : fieldOp w = fieldOp p := by
  rw [← h, and_opMask, fieldOp_encodeXNN]

theorem fields_of_matchN (h : w &&& 0xF00F#16 = p) : fieldOp w = fieldOp p ∧ fieldN w = fieldN p := by
  rw [← h, and_subMaskN, fieldOp_encodeXYN, fieldN_encodeXYN]; exact ⟨rfl, rfl⟩

theorem fields_of_matchNN (h : w &&& 0xF0FF#16 = p) : fieldOp w = fieldOp p ∧ fieldNN w = fieldNN p := by
  rw [← h, and_subMaskNN, fieldOp_encodeXNN, fieldNN_encodeXNN]; exact ⟨rfl, rfl⟩

/-! ## A word that matches a row is the encoding of the row's instruction -/

theorem encodeAddr_of_match (h : w &&& 0xF000#16 = p) : encodeAddr (fieldOp p) (fieldNNN w) = w := by
  rw [← fieldOp_of_match h, encodeAddr_fields]

theorem encodeXNN_of_match (h : w &&& 0xF000#16 = p) : encodeXNN (fieldOp p) (fieldX w) (fieldNN w) = w := by
  rw [← fieldOp_of_match h, encodeXNN_fields]

theorem encodeXYN_of_match (h : w &&& 0xF000#16 = p) :
    encodeXYN (fieldOp p) (fieldX w) (fieldY w) (fieldN w) = w := by
  rw [← fieldOp_of_match h, encodeXYN_fields]

theorem encodeXYN_of_matchN (h : w &&& 0xF00F#16 = p) :
    encodeXYN (fieldOp p) (fieldX w) (fieldY w) (fieldN p) = w := by
  obtain ⟨hop, hn⟩ := fields_of_matchN h
  rw [← hop, ← hn, encodeXYN_fields]

theorem encodeXNN_of_matchNN (h : w &&& 0xF0FF#16 = p) : encodeXNN (fieldOp p) (fieldX w) (fieldNN p) = w := by
  obtain ⟨hop, hnn⟩ := fields_of_matchNN h
  rw [← hop, ← hnn, encodeXNN_fields]

/-- One case for each row of the table, by its format (30_encoding.md R92). -/
theorem encode_build : ∀ r ∈ opcodeTable, ∀ w : Word, w &&& r.mask = r.pattern → encode (r.build w) = w := by
  refine List.forall_iff_forall_mem.mp ⟨?cls, ?ret, ?jp, ?call, ?seByte, ?sneByte, ?seReg, ?ldByte, ?addByte, ?ldReg, ?orReg,
    ?andReg, ?xorReg, ?addReg, ?sub, ?shr, ?subn, ?shl, ?sneReg, ?ldI, ?jpV0, ?rnd, ?drw, ?skp, ?sknp, ?ldVxDt, ?ldVxK,
    ?ldDtVx, ?ldStVx, ?addI, ?ldF, ?ldB, ?ldMemVx, ?ldVxMem⟩
  case cls | ret => exact fun w h => h.symm.trans BitVec.and_allOnes
  case jp | call | ldI | jpV0 => exact fun w => encodeAddr_of_match
  case seByte | sneByte | ldByte | addByte | rnd => exact fun w => encodeXNN_of_match
  case drw => exact fun w => encodeXYN_of_match
  case seReg | sneReg | ldReg | orReg | andReg | xorReg | addReg | sub | shr | subn | shl =>
    exact fun w => encodeXYN_of_matchN
  case skp | sknp | ldVxDt | ldVxK | ldDtVx | ldStVx | addI | ldF | ldB | ldMemVx | ldVxMem =>
    exact fun w => encodeXNN_of_matchNN

/-- Settles O4: the word matches the row it decodes by. -/
theorem encodeOfDecodeIsTheWord : Obligations.EncodeOfDecodeIsTheWord := by
  unfold Obligations.EncodeOfDecodeIsTheWord
  intro w i h
  obtain ⟨r, hr, hm, rfl⟩ := decode_some h
  exact encode_build r hr w (beq_iff_eq.mp hm)

/-! ## Well-formed operands -/

@[simp] theorem inRange_reg (x : Reg) : (Operand.reg x).inRange = true := decide_eq_true x.isLt

@[simp] theorem inRange_byte (nn : Byte) : (Operand.byte nn.toNat).inRange = true := decide_eq_true nn.isLt

@[simp] theorem inRange_addr (nnn : Addr12) : (Operand.addr nnn.toNat).inRange = true := decide_eq_true nnn.isLt

@[simp] theorem inRange_nibble (n : Nibble) : (Operand.nibble n.toNat).inRange = true := decide_eq_true n.isLt

theorem Instr.wellFormed_eq_true (i : Instr) : i.wellFormed = true := by
  cases i <;> simp [Instr.wellFormed, Instr.operands]

/-- Settles O3: the encoding is in the instruction's own row. -/
theorem decodeOfEncodeIsTheInstruction : Obligations.DecodeOfEncodeIsTheInstruction := by
  unfold Obligations.DecodeOfEncodeIsTheInstruction
  exact fun i => ⟨i.wellFormed_eq_true, decode_encode i⟩

/-! ## Which words decode -/

/-- Settles O2: the statement is one conjunct for each row of the table, in its order. -/
theorem everyTableRowDecodesToItsInstruction : Obligations.EveryTableRowDecodesToItsInstruction := by
  unfold Obligations.EveryTableRowDecodesToItsInstruction
  have hrows : ∀ r ∈ opcodeTable, RowDecodes r.mask r.pattern r.build :=
    fun r hr w hw => decode_of_mem hr (beq_iff_eq.mpr hw)
  exact List.forall_iff_forall_mem.mpr hrows

/-- Settles O1: the words are evaluated. -/
theorem sampleWordsDecodeToTheirInstruction : Obligations.SampleWordsDecodeToTheirInstruction := by
  unfold Obligations.SampleWordsDecodeToTheirInstruction
  decide

theorem decode_eq_none_iff : decode w = none ↔ ∀ r ∈ opcodeTable, w &&& r.mask ≠ r.pattern := by
  simp [decode, Row.matches]

theorem match_iff (hp : p &&& 0xF000#16 = p) : w &&& 0xF000#16 = p ↔ fieldOp w = p.extractLsb' 12 4 := by
  refine ⟨fieldOp_of_match, fun h => ?_⟩
  rw [← hp, and_opMask, and_opMask, h]; rfl

theorem matchN_iff (hp : p &&& 0xF00F#16 = p) :
    w &&& 0xF00F#16 = p ↔ fieldOp w = p.extractLsb' 12 4 ∧ fieldN w = p.extractLsb' 0 4 := by
  refine ⟨fields_of_matchN, fun ⟨hop, hn⟩ => ?_⟩
  rw [← hp, and_subMaskN, and_subMaskN, hop, hn]; rfl

theorem matchNN_iff (hp : p &&& 0xF0FF#16 = p) :
    w &&& 0xF0FF#16 = p ↔ fieldOp w = p.extractLsb' 12 4 ∧ fieldNN w = p.extractLsb' 0 8 := by
  refine ⟨fields_of_matchNN, fun ⟨hop, hnn⟩ => ?_⟩
  rw [← hp, and_subMaskNN, and_subMaskNN, hop, hnn]; rfl

theorem match_allOnes_iff : w &&& 0xFFFF#16 = p ↔ w = p := by
  rw [show w &&& 0xFFFF#16 = w from BitVec.and_allOnes]

/-- The rows of the table denied, in its order, those with one operation nibble together. -/
theorem decode_eq_none_iff_fields : decode w = none ↔
    w ≠ 0x00E0 ∧ w ≠ 0x00EE ∧
    fieldOp w ∉ ([0x1, 0x2, 0x3, 0x4] : List Nibble) ∧
    (fieldOp w = 0x5 → fieldN w ≠ 0) ∧
    fieldOp w ∉ ([0x6, 0x7] : List Nibble) ∧
    (fieldOp w = 0x8 → fieldN w ∉ ([0x0, 0x1, 0x2, 0x3, 0x4, 0x5, 0x6, 0x7, 0xE] : List Nibble)) ∧
    (fieldOp w = 0x9 → fieldN w ≠ 0) ∧
    fieldOp w ∉ ([0xA, 0xB, 0xC, 0xD] : List Nibble) ∧
    (fieldOp w = 0xE → fieldNN w ∉ ([0x9E, 0xA1] : List Byte)) ∧
    (fieldOp w = 0xF → fieldNN w ∉ ([0x07, 0x0A, 0x15, 0x18, 0x1E, 0x29, 0x33, 0x55, 0x65] : List Byte)) := by
  rw [decode_eq_none_iff]
  simp [opcodeTable, match_iff, matchN_iff, matchNN_iff, match_allOnes_iff, imp_and, and_assoc]

theorem nibble_mem_all (a : Nibble) :
    a ∈ ([0x0, 0x1, 0x2, 0x3, 0x4, 0x5, 0x6, 0x7, 0x8, 0x9, 0xA, 0xB, 0xC, 0xD, 0xE, 0xF] : List Nibble) := by
  decide +revert

/-- The sub-opcodes that the rows of operation nibble 8 leave out are the listed ones. -/
theorem notMem_sub8_iff (n : Nibble) : n ∉ ([0x0, 0x1, 0x2, 0x3, 0x4, 0x5, 0x6, 0x7, 0xE] : List Nibble) ↔
    n ∈ ([0x8, 0x9, 0xA, 0xB, 0xC, 0xD, 0xF] : List Nibble) := by
  decide +revert

/-- Settles O5: for each value of `fieldOp`, the rows that have it leave out the words of one condition of R98, or none. -/
theorem unknownWordsAreExactlyTheListedOnes : Obligations.UnknownWordsAreExactlyTheListedOnes := by
  unfold Obligations.UnknownWordsAreExactlyTheListedOnes
  intro w
  have hcls : fieldOp w ≠ 0 → w ≠ 0x00E0#16 := by rintro h rfl; exact h rfl
  have hret : fieldOp w ≠ 0 → w ≠ 0x00EE#16 := by rintro h rfl; exact h rfl
  have hop := nibble_mem_all (fieldOp w)
  rw [decode_eq_none_iff_fields, notMem_sub8_iff, ushiftRight_eq_fieldOp]
  simp only [List.mem_cons, List.not_mem_nil, or_false] at hop
  obtain h | h | h | h | h | h | h | h | h | h | h | h | h | h | h | h := hop <;> simp [h, hcls, hret]

end Sys2Proof
end

section
/-! PROOFS. A step by what it fetches, and the two ways it commits nothing: a fatal error and a refusal (spec 30_encoding.md
R110 to R113; 60_exceptions.md R255, R258). -/

namespace Sys2Proof.Machine

variable {s : State}

/-- Settles O6: the fetch answers the instruction that the word decodes to. -/
theorem stepRunsTheDecodedInstruction : Obligations.StepRunsTheDecodedInstruction := by
  unfold Obligations.StepRunsTheDecodedInstruction
  exact fun s w i hs hw hd => step_of_fetch hs (State.fetchInstr_of_decode hw hd)

/-- The action step is the step with the draw presented. -/
theorem act_step (rand : Byte) (s : State) : act (.step rand) s = stepResult s (step { s with randIn := some rand }) := rfl

/-- Settles O11: the presented draw leaves the status faulted. -/
theorem faultedBlockIsInert : Obligations.FaultedBlockIsInert := by
  unfold Obligations.FaultedBlockIsInert
  intro s r rand hs
  refine ⟨step_faulted hs, ?_⟩
  rw [act_step, step_faulted (s := { s with randIn := some rand }) hs]; rfl

/-- Settles O10: the error came from the fetch, or from the fetched instruction. -/
theorem fatalErrorCommitsOnlyStatus : Obligations.FatalErrorCommitsOnlyStatus := by
  unfold Obligations.FatalErrorCommitsOnlyStatus
  intro s t r hs h hr
  obtain ⟨-, ⟨r', hf, rfl⟩ | ⟨ins, -, he⟩⟩ := step_next h
  · cases hr; exact ⟨rfl, State.fetchInstr_error_pc hf⟩
  · obtain hst | ⟨r', hpc, rfl⟩ := exec_next_status ins he
    · rw [hst, hs] at hr; cases hr
    · cases hr; exact ⟨rfl, hpc⟩

/-! ## A refused step -/

/-- Neither the fetch nor a key skip reads the presented draw. -/
theorem act_step_refused {x : Reg} (rand : Byte) (hs : s.status = .running)
    (hf : s.fetchInstr = .ok (.skp x) ∨ s.fetchInstr = .ok (.sknp x)) (h : 0xF < (s.getV x).toNat) :
    act (.step rand) s = (s, .refused .keyCodeOutOfRange) := by
  have hstep : step { s with randIn := some rand } = .refused .keyCodeOutOfRange := by
    obtain hf | hf := hf
    · exact (step_of_fetch (s := { s with randIn := some rand }) hs hf).trans (execSkp_refused h)
    · exact (step_of_fetch (s := { s with randIn := some rand }) hs hf).trans (execSknp_refused h)
  rw [act_step, hstep]; rfl

theorem Run.act_refused {run : Run} {why : Refusal} (a : Action) (h : run.refused = some why) :
    (run.act a).refused = some why := by
  simp [Run.act, h]

theorem runActions_refused {why : Refusal} (as : List Action) {run : Run} (h : run.refused = some why) :
    (runActions as run).refused = some why := by
  induction as generalizing run with
  | nil => exact h
  | cons a as ih => exact ih (Run.act_refused a h)

/-- Settles O14: the refused action sets the mark, and no later action clears it. -/
theorem refusedStepChangesNothingAndMarksTheRun : Obligations.RefusedStepChangesNothingAndMarksTheRun := by
  unfold Obligations.RefusedStepChangesNothingAndMarksTheRun
  intro s rand x as hs hf hx
  have hact := act_step_refused rand hs hf hx
  refine ⟨hact, runActions_refused as ?_⟩
  rw [Run.act, Run.start, hact]

end Sys2Proof.Machine
end

section
/-! PROOFS. Control flow: jumps, comparison skips, calls and returns, and the halt point (spec 40_control_flow.md R120 to R129;
70_reset_and_hazards.md R308). -/

namespace Sys2Proof

/-- Every word of a row that the opcode table lists decodes by it. -/
theorem rowDecodes_of_mem {mask pattern : Word} {build : Word → Instr} (h : ⟨pattern, mask, build⟩ ∈ opcodeTable) :
    RowDecodes mask pattern build :=
  fun _ hw => decode_of_mem h (beq_iff_eq.mpr hw)

namespace Machine

variable {s t u : State}

/-! ## Jumps -/

theorem zext16_eq_ofNat (nnn : Addr12) : zext16 nnn = BitVec.ofNat 16 nnn.toNat :=
  (BitVec.ofNat_toNat 16 nnn).symm

theorem getV16_eq_ofNat (x : Reg) : s.getV16 x = BitVec.ofNat 16 (s.getV x).toNat :=
  (BitVec.ofNat_toNat 16 (s.getV x)).symm

theorem execJp_eq (nnn : Addr12) : execJp nnn s = .next { s with pc := zext16 nnn, wait := none } := rfl

theorem execJpV0_eq (nnn : Addr12) : execJpV0 nnn s = .next { s with pc := zext16 nnn + s.getV16 0, wait := none } := rfl

/-- Settles O17: the sum of the zero-extended operands is the sum of the naturals. -/
theorem jumpsSetPc : Obligations.JumpsSetPc := by
  unfold Obligations.JumpsSetPc
  refine ⟨rowDecodes_of_mem (by simp [opcodeTable]), rowDecodes_of_mem (by simp [opcodeTable]), fun nnn s => ⟨?jp, ?jpV0⟩⟩
  case jp =>
    rw [← zext16_eq_ofNat]; exact execJp_eq nnn
  case jpV0 =>
    rw [BitVec.ofNat_add, ← zext16_eq_ofNat, ← getV16_eq_ofNat]; exact execJpV0_eq nnn

/-! ## The halt point -/

/-- The word of a jump to its own address. -/
theorem or_zext16_eq_encode_jp (nnn : Addr12) : 0x1000 ||| zext16 nnn = encode (.jp nnn) := by
  refine BitVec.eq_of_getLsbD_eq fun k hk => ?_
  simp only [encode, getLsbD_encodeAddr, zext16, BitVec.getLsbD_or, BitVec.getLsbD_setWidth]
  interval_cases k <;> simp

theorem zext16_setWidth_of_lt {w : Word} (h : w.toNat < 0x1000) : zext16 (w.setWidth 12) = w := by
  apply BitVec.eq_of_toNat_eq
  rw [toNat_zext16, BitVec.toNat_setWidth, Nat.mod_eq_of_lt h]

/-- At a halt point the fetched instruction is a jump whose target is `PC`. -/
theorem haltPoint_fetchInstr (h : haltPoint s) : ∃ nnn, zext16 nnn = s.pc ∧ s.fetchInstr = .ok (.jp nnn) := by
  obtain ⟨-, hw⟩ := h
  obtain ⟨hlt, -⟩ := State.fetchWord_ok hw
  have hpc : zext16 (s.pc.setWidth 12) = s.pc := zext16_setWidth_of_lt (by omega)
  refine ⟨_, hpc, State.fetchInstr_of_decode hw ?_⟩
  conv_lhs => rw [← hpc, or_zext16_eq_encode_jp]
  exact decode_encode _

/-- Settles O58: the jump writes `PC` with its own value, and a halt point does not depend on `wait`. -/
theorem haltPointIsNeverLeft : Obligations.HaltPointIsNeverLeft := by
  unfold Obligations.HaltPointIsNeverLeft
  intro s h
  obtain ⟨nnn, hpc, hf⟩ := haltPoint_fetchInstr h
  refine ⟨?step, h⟩
  case step =>
    obtain ⟨hs, -⟩ := h
    rw [step_of_fetch hs hf]
    exact (execJp_eq nnn).trans (by rw [hpc])

/-! ## The comparison skips -/

theorem done_advance_skipIf (b : Bool) : done (s.advance.skipIf b) =
    .next { s with pc := if b then s.pc + 4 else s.pc + 2, wait := none } := by
  rw [← pc_advance_skipIf]
  cases b <;> rfl

/-- Settles O21: the condition of `SNE` is the negation of that of `SE`. -/
theorem comparisonSkipsMoveOnlyPc : Obligations.ComparisonSkipsMoveOnlyPc := by
  unfold Obligations.ComparisonSkipsMoveOnlyPc
  refine ⟨rowDecodes_of_mem (by simp [opcodeTable]), rowDecodes_of_mem (by simp [opcodeTable]),
    rowDecodes_of_mem (by simp [opcodeTable]), rowDecodes_of_mem (by simp [opcodeTable]), fun x y nn s =>
      ⟨?seByte, ?sneByte, ?seReg, ?sneReg⟩⟩
  case seByte | seReg => exact (done_advance_skipIf _).trans (by simp only [decide_eq_true_eq])
  case sneByte | sneReg => exact (done_advance_skipIf _).trans (by simp only [decide_eq_true_eq, ne_eq, ite_not])

/-! ## One call, one return -/

/-- Settles O18: only the cell at the old depth is written. -/
theorem callPushesReturnAddressOrOverflows : Obligations.CallPushesReturnAddressOrOverflows := by
  unfold Obligations.CallPushesReturnAddressOrOverflows
  refine ⟨rowDecodes_of_mem (by simp [opcodeTable]), fun nnn s => ⟨fun h => ?room, fun h => ?full⟩⟩
  case room =>
    refine ⟨_, execCall_room nnn h, rfl, fun j => ?_, by rw [zext16_eq_ofNat]⟩
    simp [Vector.getElem_set, eq_comm]
  case full => exact execCall_full nnn h

/-- Settles O19: the pop lowers the depth and writes no cell. -/
theorem retPopsReturnAddressOrUnderflows : Obligations.RetPopsReturnAddressOrUnderflows := by
  unfold Obligations.RetPopsReturnAddressOrUnderflows
  refine ⟨rowDecodes_of_mem (by simp [opcodeTable]), fun s => ⟨fun j h => ?entry, fun h => ?empty⟩⟩
  case entry => exact ⟨_, execRet_entry j h, rfl, rfl, rfl⟩
  case empty => exact execRet_empty h

/-! ## Nested calls -/

theorem execAll_cons {ins : Instr} (is : List Instr) (h : exec ins s = .next t) :
    execAll (ins :: is) s = execAll is t := by
  simp [execAll, h]

theorem execAll_append {is : List Instr} (js : List Instr) (h : execAll is s = .next t) :
    execAll (is ++ js) s = execAll js t := by
  induction is generalizing s with
  | nil => cases h; rfl
  | cons ins is ih =>
    cases hx : exec ins s with
    | next u =>
      rw [execAll_cons is hx] at h
      rw [List.cons_append, execAll_cons _ hx, ih h]
    | fault r => simp [execAll, hx] at h
    | refused why => simp [execAll, hx] at h

/-- What a subroutine that returned leaves to its caller: the stack's entries, the registers and the status. The cells above
`SP` may have changed. -/
structure KeepsCaller (s t : State) : Prop where
  sp : t.sp = s.sp
  stack : ∀ j : Fin 16, j.val < s.sp.val → t.stack[j] = s.stack[j]
  v : t.v = s.v
  status : t.status = s.status

theorem KeepsCaller.refl (s : State) : KeepsCaller s s := ⟨rfl, fun _ _ => rfl, rfl, rfl⟩

/-- The state that `CALL` with room answers. -/
def State.called (s : State) (nnn : Addr12) (h : s.sp.val < 16) : State :=
  { s with stack := s.stack.set s.sp.val (s.pc + 2), sp := ⟨s.sp.val + 1, by omega⟩, pc := zext16 nnn, wait := none }

theorem exec_call (nnn : Addr12) (h : s.sp.val < 16) : exec (.call nnn) s = .next (s.called nnn h) := execCall_room nnn h

/-- A `RET` after a body that keeps its caller comes back behind the `CALL`: the entry that the call pushed is the top one. -/
theorem ret_of_keepsCaller_called {nnn : Addr12} (h : s.sp.val < 16) (hu : KeepsCaller (s.called nnn h) u) :
    ∃ t, exec .ret u = .next t ∧ t.pc = s.pc + 2 ∧ KeepsCaller s t := by
  obtain ⟨hsp, hstack, hv, hst⟩ := hu
  have htop : u.sp.val = (⟨s.sp.val, h⟩ : Fin 16).val + 1 := by rw [hsp]; rfl
  refine ⟨_, execRet_entry _ htop, ?pc, rfl, fun j hj => ?stack, hv, hst⟩
  case pc =>
    exact (hstack _ (Nat.lt_succ_self _)).trans (Vector.getElem_set_self h)
  case stack =>
    exact (hstack j (Nat.lt_succ_of_lt hj)).trans (Vector.getElem_set_ne h j.isLt (by omega))

/-- A `CALL`, a body that keeps its caller, and a `RET`. -/
theorem execAll_call_body_ret {nnn : Addr12} {body : List Instr} (h : s.sp.val < 16)
    (hbody : execAll body (s.called nnn h) = .next u) (hu : KeepsCaller (s.called nnn h) u) :
    ∃ t, execAll (.call nnn :: body ++ [.ret]) s = .next t ∧ t.pc = s.pc + 2 ∧ KeepsCaller s t := by
  obtain ⟨t, ht, hpc, hk⟩ := ret_of_keepsCaller_called h hu
  refine ⟨t, ?_, hpc, hk⟩
  rw [List.cons_append, execAll_cons _ (exec_call nnn h), execAll_append _ hbody, execAll_cons _ ht]; rfl

/-- Calls and as many returns. -/
def nest (calls : List Addr12) : List Instr := calls.map .call ++ List.replicate calls.length .ret

theorem nest_cons (first : Addr12) (rest : List Addr12) : nest (first :: rest) = .call first :: nest rest ++ [.ret] := by
  simp [nest, List.replicate_succ']

theorem execAll_nest (calls : List Addr12) (h : s.sp.val + calls.length ≤ 16) :
    ∃ t, execAll (nest calls) s = .next t ∧ (calls ≠ [] → t.pc = s.pc + 2) ∧ KeepsCaller s t := by
  induction calls generalizing s with
  | nil => exact ⟨s, rfl, fun hne => absurd rfl hne, .refl s⟩
  | cons first rest ih =>
    rw [List.length_cons] at h
    have hs : s.sp.val < 16 := by omega
    obtain ⟨u, hu, -, hk⟩ := ih (s := s.called first hs) (by simp only [State.called]; omega)
    obtain ⟨t, ht, hpc, hk⟩ := execAll_call_body_ret hs hu hk
    exact ⟨t, by rw [nest_cons, ht], fun _ => hpc, hk⟩

/-- Calls that are one more than there is room for: the last one finds the stack full. -/
theorem execAll_calls_overflow (first : Addr12) (rest : List Addr12) (h : s.sp.val + rest.length = 16) :
    ∃ t r, execAll ((first :: rest).map .call) s = .next t ∧ t.sp.val = 16 ∧ t.v = s.v ∧
      t.status = .faulted r ∧ r.kind = .stackOverflow := by
  induction rest generalizing s first with
  | nil => exact ⟨_, _, execAll_cons [] (execCall_full first h), h, rfl, rfl, rfl⟩
  | cons second rest ih =>
    rw [List.length_cons] at h
    have hs : s.sp.val < 16 := by omega
    rw [List.map_cons, execAll_cons _ (exec_call first hs)]
    exact ih (s := s.called first hs) second (by simp only [State.called]; omega)

/-- Settles O20, by induction on the calls: each call and its return enclose the nested ones. -/
theorem nestedCallsReturnAfterTheFirstCall : Obligations.NestedCallsReturnAfterTheFirstCall := by
  unfold Obligations.NestedCallsReturnAfterTheFirstCall
  refine fun first rest s => ⟨fun h => ?room, fun h => execAll_calls_overflow first rest (by omega)⟩
  case room =>
    obtain ⟨t, ht, hpc, hk⟩ := execAll_nest (first :: rest) h
    exact ⟨t, ht, hpc (List.cons_ne_nil _ _), hk.sp, hk.v, hk.status⟩

end Machine
end Sys2Proof
end

section
/-! PROOFS. Arithmetic and logic on registers (spec 41_arithmetic.md R140 to R151): what an instruction leaves that writes one
register, or a result and then VF (10_state.md R23), and the flags and results as arithmetic on naturals. -/

namespace Sys2Proof.Machine

variable {s t : State} {x y : Reg} {b : Byte} {flag : Bool}

/-! ## One register written, or a result and then VF -/

/-- `t` is `s` after an instruction that writes `b` to `V[x]` and nothing else. -/
structure WritesReg (s t : State) (x : Reg) (b : Byte) : Prop where
  dest : t.getV x = b
  kept : ∀ z, z ≠ x → t.getV z = s.getV z
  frame : t = { s with v := t.v, pc := s.pc + 2, wait := none }

/-- `t` is `s` after an instruction that writes `b` to `V[x]` and then `flag` to VF, which is `V[15]`: with `x = 0xF` the flag
stays (10_state.md R23). -/
structure WritesRegFlag (s t : State) (x : Reg) (b : Byte) (flag : Bool) : Prop where
  vf : t.getV 15 = flagByte flag
  dest : x ≠ 15 → t.getV x = b
  kept : ∀ z, z ≠ x → z ≠ 15 → t.getV z = s.getV z
  frame : t = { s with v := t.v, pc := s.pc + 2, wait := none }

theorem done_setV_writesReg (s : State) (x : Reg) (b : Byte) :
    ∃ t, done (s.advance.setV x b) = .next t ∧ WritesReg s t x b :=
  ⟨_, rfl, State.getV_setV_self _ x b, fun z hz => State.getV_setV_ne _ x z b hz.symm, rfl⟩

theorem done_setResultFlag_writesRegFlag (s : State) (x : Reg) (b : Byte) (flag : Bool) :
    ∃ t, done (s.advance.setResultFlag x b flag) = .next t ∧ WritesRegFlag s t x b flag := by
  refine ⟨_, rfl, State.getV_setResultFlag_flag _ x b flag, fun hx => ?dest, fun z hz hf => ?kept, rfl⟩
  case dest => exact (State.getV_setResultFlag_ne _ x x b flag hx.symm).trans (if_pos rfl)
  case kept => exact (State.getV_setResultFlag_ne _ x z b flag hf.symm).trans (if_neg hz.symm)

theorem WritesReg.getV_eq (h : WritesReg s t x b) (z : Reg) : t.getV z = if z = x then b else s.getV z := by
  split
  case isTrue hz => rw [hz, h.dest]
  case isFalse hz => exact h.kept z hz

/-! ## Flags and results (41_arithmetic.md R140, R148 to R151) -/

theorem flagByte_decide (p : Prop) [Decidable p] : flagByte (decide p) = if p then 1 else 0 := by
  simp [flagByte]

theorem flagByte_carry (u v : Byte) : flagByte (carry u v) = if u.toNat + v.toNat > 255 then 1 else 0 :=
  flagByte_decide _

theorem flagByte_notBorrow (u v : Byte) : flagByte (notBorrow u v) = if u.toNat ≥ v.toNat then 1 else 0 :=
  flagByte_decide _

theorem toNat_flagByte (flag : Bool) : (flagByte flag).toNat = flag.toNat := by
  cases flag <;> rfl

theorem toNat_flagByte_shiftedOutRight (b : Byte) : (flagByte (shiftedOutRight b)).toNat = b.toNat % 2 := by
  rw [toNat_flagByte, shiftedOutRight, BitVec.getLsbD, Nat.toNat_testBit, pow_zero, Nat.div_one]

theorem toNat_flagByte_shiftedOutLeft (b : Byte) : (flagByte (shiftedOutLeft b)).toNat = b.toNat / 128 := by
  have hb := b.isLt
  rw [toNat_flagByte, shiftedOutLeft, BitVec.getLsbD, Nat.toNat_testBit]; omega

theorem toNat_ushiftRight_one (b : Byte) : (b >>> 1).toNat = b.toNat / 2 := by
  rw [BitVec.toNat_ushiftRight, Nat.shiftRight_eq_div_pow, pow_one]

theorem toNat_shiftLeft_one (b : Byte) : (b <<< 1).toNat = b.toNat * 2 % 256 := by
  rw [BitVec.toNat_shiftLeft, Nat.shiftLeft_eq, pow_one]

/-- The difference modulo 256 is that of the integers. -/
theorem toNat_sub_emod (u v : Byte) : ((u - v).toNat : Int) = (u.toNat - v.toNat : Int) % 256 := by
  have hv := v.isLt
  rw [BitVec.toNat_sub]; omega

/-- `q` is the source register that `SHIFT_SOURCE` selects. -/
theorem shiftSource_eq_getV {q : Reg} (h : s.cfg.shiftSource = .vx ∧ q = x ∨ s.cfg.shiftSource = .vy ∧ q = y) :
    s.shiftSource x y = s.getV q := by
  obtain ⟨hc, rfl⟩ | ⟨hc, rfl⟩ := h <;> simp [State.shiftSource, hc]

/-! ## The instructions -/

/-- Settles O22: both write one register. -/
theorem loadAndCopyWriteTheDestinationOnly : Obligations.LoadAndCopyWriteTheDestinationOnly := by
  unfold Obligations.LoadAndCopyWriteTheDestinationOnly
  refine ⟨rowDecodes_of_mem (by simp [opcodeTable]), rowDecodes_of_mem (by simp [opcodeTable]),
    fun x y nn s => ⟨?ldByte, ?ldReg⟩⟩
  case ldByte =>
    obtain ⟨t, ht, hw⟩ := done_setV_writesReg s x nn
    exact ⟨t, ht, hw.getV_eq, hw.frame⟩
  case ldReg =>
    obtain ⟨t, ht, hw⟩ := done_setV_writesReg s x (s.getV y)
    exact ⟨t, ht, hw.getV_eq, hw.frame⟩

/-- Settles O23: the sum of bytes is the sum of the naturals modulo 256. -/
theorem addByteWrapsWithoutAFlag : Obligations.AddByteWrapsWithoutAFlag := by
  unfold Obligations.AddByteWrapsWithoutAFlag
  refine ⟨rowDecodes_of_mem (by simp [opcodeTable]), fun x nn s => ?_⟩
  obtain ⟨t, ht, hw⟩ := done_setV_writesReg s x (s.getV x + nn)
  exact ⟨t, ht, by rw [hw.dest, BitVec.toNat_add], hw.kept, hw.frame⟩

/-- Settles O24: each bit of the result is the operation of the operands' bits. -/
theorem bitwiseOperationsWriteNoFlag : Obligations.BitwiseOperationsWriteNoFlag := by
  unfold Obligations.BitwiseOperationsWriteNoFlag
  refine ⟨rowDecodes_of_mem (by simp [opcodeTable]), rowDecodes_of_mem (by simp [opcodeTable]),
    rowDecodes_of_mem (by simp [opcodeTable]), fun x y s => ⟨?orReg, ?andReg, ?xorReg⟩⟩
  case orReg =>
    obtain ⟨t, ht, hw⟩ := done_setV_writesReg s x (s.getV x ||| s.getV y)
    exact ⟨t, ht, fun k => by rw [hw.dest, BitVec.getLsbD_or], hw.kept, hw.frame⟩
  case andReg =>
    obtain ⟨t, ht, hw⟩ := done_setV_writesReg s x (s.getV x &&& s.getV y)
    exact ⟨t, ht, fun k => by rw [hw.dest, BitVec.getLsbD_and], hw.kept, hw.frame⟩
  case xorReg =>
    obtain ⟨t, ht, hw⟩ := done_setV_writesReg s x (s.getV x ^^^ s.getV y)
    exact ⟨t, ht, fun k => by rw [hw.dest, BitVec.getLsbD_xor], hw.kept, hw.frame⟩

/-- Settles O25: the carry is written after the sum. -/
theorem addRegWritesSumAndThenCarry : Obligations.AddRegWritesSumAndThenCarry := by
  unfold Obligations.AddRegWritesSumAndThenCarry
  refine ⟨rowDecodes_of_mem (by simp [opcodeTable]), fun x y s => ?_⟩
  obtain ⟨t, ht, hw⟩ :=
    done_setResultFlag_writesRegFlag s x (s.getV x + s.getV y) (carry (s.getV x) (s.getV y))
  exact ⟨t, ht, by rw [hw.vf, flagByte_carry], fun hx => by rw [hw.dest hx, BitVec.toNat_add], hw.kept, hw.frame⟩

/-- The result and the flag of a subtraction, its operands in either order. -/
theorem done_difference (s : State) (x : Reg) (u v : Byte) :
    ∃ t, done (s.advance.setResultFlag x (u - v) (notBorrow u v)) = .next t ∧
      t.getV 15 = (if u.toNat ≥ v.toNat then 1 else 0) ∧
      (x ≠ 15 → ((t.getV x).toNat : Int) = (u.toNat - v.toNat : Int) % 256) ∧
      (∀ z, z ≠ x → z ≠ 15 → t.getV z = s.getV z) ∧
      t = { s with v := t.v, pc := s.pc + 2, wait := none } := by
  obtain ⟨t, ht, hw⟩ := done_setResultFlag_writesRegFlag s x (u - v) (notBorrow u v)
  exact ⟨t, ht, by rw [hw.vf, flagByte_notBorrow], fun hx => by rw [hw.dest hx, toNat_sub_emod], hw.kept, hw.frame⟩

/-- Settles O26: the two subtractions take their operands in opposite orders. -/
theorem subtractionsWriteDifferenceAndThenNotBorrow : Obligations.SubtractionsWriteDifferenceAndThenNotBorrow := by
  unfold Obligations.SubtractionsWriteDifferenceAndThenNotBorrow
  exact ⟨rowDecodes_of_mem (by simp [opcodeTable]), rowDecodes_of_mem (by simp [opcodeTable]),
    fun x y s => ⟨done_difference s x (s.getV x) (s.getV y), done_difference s x (s.getV y) (s.getV x)⟩⟩

/-- Settles O27: the source is read before either write, and the bit shifted out is written last. -/
theorem shiftsWriteResultAndThenBitShiftedOut : Obligations.ShiftsWriteResultAndThenBitShiftedOut := by
  unfold Obligations.ShiftsWriteResultAndThenBitShiftedOut
  refine ⟨rowDecodes_of_mem (by simp [opcodeTable]), rowDecodes_of_mem (by simp [opcodeTable]), fun x y q s hq => ?_⟩
  rw [← shiftSource_eq_getV hq]
  refine ⟨?shr, ?shl⟩
  case shr =>
    obtain ⟨t, ht, hw⟩ :=
      done_setResultFlag_writesRegFlag s x (s.shiftSource x y >>> 1) (shiftedOutRight (s.shiftSource x y))
    exact ⟨t, ht, by rw [hw.vf, toNat_flagByte_shiftedOutRight], fun hx => by rw [hw.dest hx, toNat_ushiftRight_one],
      hw.kept, hw.frame⟩
  case shl =>
    obtain ⟨t, ht, hw⟩ :=
      done_setResultFlag_writesRegFlag s x (s.shiftSource x y <<< 1) (shiftedOutLeft (s.shiftSource x y))
    exact ⟨t, ht, by rw [hw.vf, toNat_flagByte_shiftedOutLeft], fun hx => by rw [hw.dest hx, toNat_shiftLeft_one],
      hw.kept, hw.frame⟩

end Sys2Proof.Machine
end

section
/-! PROOFS. The random draw (spec 42_random.md R170, R171): what `RND` does with it, and that every other instruction commutes
with a change of the model's two draw fields (log 2). -/

namespace Sys2Proof.Machine

variable {s : State} {ins : Instr}

/-! ## `RND` -/

theorem State.rand_of_randIn {b : Byte} (h : s.randIn = some b) : s.rand = b := by
  rw [State.rand, h, Option.getD_some]

/-- Using up the draw writes the two draw fields only. -/
theorem State.consumeRand_frame (s : State) :
    s.consumeRand = { s with randIn := s.consumeRand.randIn, draws := s.consumeRand.draws } := by
  unfold State.consumeRand
  cases s.randIn <;> rfl

/-- A masked byte has no bit outside the mask. -/
theorem and_and_not_self (b nn : Byte) : b &&& nn &&& ~~~nn = 0 := by
  rw [BitVec.and_assoc, BitVec.and_not_self]; exact BitVec.and_zero

/-- Settles O28: `RND` writes one register, in the state whose draw is used up. -/
theorem rndLoadsAnyDrawUnderTheMask : Obligations.RndLoadsAnyDrawUnderTheMask := by
  unfold Obligations.RndLoadsAnyDrawUnderTheMask
  refine ⟨rowDecodes_of_mem (by simp [opcodeTable]), fun x nn s => ?_⟩
  obtain ⟨t, ht, hw⟩ := done_setV_writesReg s.consumeRand x (s.rand &&& nn)
  refine ⟨t, ht, ?mask, fun b hb => ?presented, fun z hz => ?kept, ?frame⟩
  case mask => rw [hw.dest, and_and_not_self]
  case presented => rw [hw.dest, State.rand_of_randIn hb]
  case kept => rw [hw.kept z hz, State.getV_consumeRand]
  case frame =>
    have hframe := hw.frame
    rw [State.consumeRand_frame] at hframe
    rw [hframe]

/-! ## Every other instruction -/

/-- The model's two draw fields replaced. -/
def State.setDraw (s : State) (rand : Option Byte) (d : Nat) : State := { s with randIn := rand, draws := d }

section Commutes

variable (rand : Option Byte) (d : Nat)

/-! ### What an instruction reads -/

@[simp] theorem State.cfg_setDraw : (s.setDraw rand d).cfg = s.cfg := rfl
@[simp] theorem State.indexAddr_setDraw : (s.setDraw rand d).indexAddr = s.indexAddr := rfl
@[simp] theorem State.getV_setDraw (x : Reg) : (s.setDraw rand d).getV x = s.getV x := rfl
@[simp] theorem State.regBlock_setDraw (x : Reg) : (s.setDraw rand d).regBlock x = s.regBlock x := rfl
@[simp] theorem State.keyCode_setDraw (x : Reg) : (s.setDraw rand d).keyCode x = s.keyCode x := rfl
@[simp] theorem State.qualifyingKey_setDraw : (s.setDraw rand d).qualifyingKey = s.qualifyingKey := rfl
@[simp] theorem State.readBytes_setDraw (a n : Nat) : (s.setDraw rand d).readBytes a n = s.readBytes a n := rfl

/-! ### What an instruction writes -/

theorem State.skipIf_setDraw (b : Bool) : (s.setDraw rand d).skipIf b = (s.skipIf b).setDraw rand d := by
  cases b <;> rfl

theorem State.indexAfterLdst_setDraw (x : Reg) :
    (s.setDraw rand d).indexAfterLdst x = (s.indexAfterLdst x).setDraw rand d := by
  simp only [State.indexAfterLdst, State.cfg_setDraw]
  cases s.cfg.indexAfterLdst <;> rfl

theorem State.setBytes_setDraw (a : Nat) (bs : List Byte) :
    (s.setDraw rand d).setBytes a bs = (s.setBytes a bs).setDraw rand d := by
  induction bs generalizing s a with
  | nil => rfl
  | cons b bs ih => exact ih (s := s.setByte a b) (a + 1)

theorem State.writeBytes_setDraw (a : Nat) (bs : List Byte) :
    (s.setDraw rand d).writeBytes a bs = (s.writeBytes a bs).map (·.setDraw rand d) := by
  unfold State.writeBytes
  cases firstInvalid a bs.length with
  | none => exact congrArg Except.ok (State.setBytes_setDraw rand d a bs)
  | some e => rfl

/-! ### The instructions that branch -/

theorem done_advance_skipIf_setDraw (b : Bool) :
    done ((s.setDraw rand d).advance.skipIf b) = mapNext (·.setDraw rand d) (done (s.advance.skipIf b)) :=
  congrArg done (State.skipIf_setDraw (s := s.advance) rand d b)

theorem execCall_setDraw (nnn : Addr12) :
    execCall nnn (s.setDraw rand d) = mapNext (·.setDraw rand d) (execCall nnn s) := by
  by_cases hs : s.sp.val < 16
  · rw [execCall_room nnn hs, execCall_room (s := s.setDraw rand d) nnn hs]; rfl
  · have hfull : s.sp.val = 16 := by omega
    rw [execCall_full nnn hfull, execCall_full (s := s.setDraw rand d) nnn hfull]; rfl

theorem execRet_setDraw : execRet (s.setDraw rand d) = mapNext (·.setDraw rand d) (execRet s) := by
  by_cases hs : s.sp.val = 0
  · rw [execRet_empty hs, execRet_empty (s := s.setDraw rand d) hs]; rfl
  · have hj : s.sp.val = (⟨s.sp.val - 1, by omega⟩ : Fin 16).val + 1 := by simp; omega
    rw [execRet_entry _ hj, execRet_entry (s := s.setDraw rand d) _ hj]; rfl

theorem execDrw_setDraw (x y : Reg) (n : Nibble) :
    execDrw x y n (s.setDraw rand d) = mapNext (·.setDraw rand d) (execDrw x y n s) := by
  simp only [execDrw, State.indexAddr_setDraw, State.readBytes_setDraw]
  cases s.readBytes s.indexAddr n.toNat <;> rfl

theorem execSkp_setDraw (x : Reg) : execSkp x (s.setDraw rand d) = mapNext (·.setDraw rand d) (execSkp x s) := by
  simp only [execSkp, State.keyCode_setDraw]
  cases s.keyCode x with
  | none => rfl
  | some k => exact done_advance_skipIf_setDraw rand d _

theorem execSknp_setDraw (x : Reg) : execSknp x (s.setDraw rand d) = mapNext (·.setDraw rand d) (execSknp x s) := by
  simp only [execSknp, State.keyCode_setDraw]
  cases s.keyCode x with
  | none => rfl
  | some k => exact done_advance_skipIf_setDraw rand d _

theorem execLdVxK_setDraw (x : Reg) :
    execLdVxK x (s.setDraw rand d) = mapNext (·.setDraw rand d) (execLdVxK x s) := by
  simp only [execLdVxK, State.qualifyingKey_setDraw]
  cases s.qualifyingKey <;> rfl

theorem execLdB_setDraw (x : Reg) : execLdB x (s.setDraw rand d) = mapNext (·.setDraw rand d) (execLdB x s) := by
  simp only [execLdB, State.indexAddr_setDraw, State.getV_setDraw, State.writeBytes_setDraw]
  cases s.writeBytes s.indexAddr (bcdDigits (s.getV x)) <;> rfl

theorem execLdMemVx_setDraw (x : Reg) :
    execLdMemVx x (s.setDraw rand d) = mapNext (·.setDraw rand d) (execLdMemVx x s) := by
  simp only [execLdMemVx, State.indexAddr_setDraw, State.regBlock_setDraw, State.writeBytes_setDraw]
  cases s.writeBytes s.indexAddr (s.regBlock x) with
  | error e => rfl
  | ok t => exact congrArg done (State.indexAfterLdst_setDraw (s := t.advance) rand d x)

theorem execLdVxMem_setDraw (x : Reg) :
    execLdVxMem x (s.setDraw rand d) = mapNext (·.setDraw rand d) (execLdVxMem x s) := by
  simp only [execLdVxMem, State.indexAddr_setDraw, State.readBytes_setDraw]
  cases s.readBytes s.indexAddr (x.val + 1) with
  | error e => rfl
  | ok bs => exact congrArg done (State.indexAfterLdst_setDraw (s := s.advance.loadRegBlock x bs) rand d x)

/-- The instructions that neither branch nor draw commute with the change by definition. -/
theorem exec_setDraw (hrnd : ∀ x nn, ins ≠ .rnd x nn) :
    exec ins (s.setDraw rand d) = mapNext (·.setDraw rand d) (exec ins s) := by
  cases ins
  case rnd x nn => exact absurd rfl (hrnd x nn)
  case seByte | sneByte | seReg | sneReg => exact done_advance_skipIf_setDraw rand d _
  case call nnn => exact execCall_setDraw rand d nnn
  case ret => exact execRet_setDraw rand d
  case drw x y n => exact execDrw_setDraw rand d x y n
  case skp x => exact execSkp_setDraw rand d x
  case sknp x => exact execSknp_setDraw rand d x
  case ldVxK x => exact execLdVxK_setDraw rand d x
  case ldB x => exact execLdB_setDraw rand d x
  case ldMemVx x => exact execLdMemVx_setDraw rand d x
  case ldVxMem x => exact execLdVxMem_setDraw rand d x
  all_goals rfl

end Commutes

/-- Settles O29: every operation but `RND` commutes with a change of the draw fields. -/
theorem onlyRndReadsTheDraw : Obligations.OnlyRndReadsTheDraw := by
  unfold Obligations.OnlyRndReadsTheDraw
  exact fun _ _ rand d hrnd => exec_setDraw rand d hrnd

end Sys2Proof.Machine
end

section
/-! PROOFS. Memory and the index register (spec 43_memory_index.md R180 to R185): what is left by an instruction that computes
`I`, by the block transfers and by the decimal store. -/

namespace Sys2Proof.Machine

variable {s t u : State} {x : Reg}

/-! ## Addresses computed into `I` (R180 to R182) -/

theorem State.toNat_add_getV16 (i : Word) (x : Reg) : (i + s.getV16 x).toNat = (i.toNat + (s.getV x).toNat) % 65536 := by
  rw [BitVec.toNat_add, State.getV16, BitVec.toNat_setWidth_of_le (by decide)]

/-- The mask 0xF keeps the low nibble. -/
theorem toNat_and_lowNibble (b : Byte) : (b &&& 0xF).toNat = b.toNat % 16 :=
  Nat.and_two_pow_sub_one_eq_mod b.toNat 4

/-- The font is 80 bytes at 0x000, so no glyph address wraps. -/
theorem toNat_glyphAddr (b : Byte) : (glyphAddr b).toNat = 5 * (b.toNat % 16) := by
  rw [glyphAddr, BitVec.toNat_ofNat, toNat_and_lowNibble, fontBase, fontGlyphBytes]; omega

/-- Settles O30: each of the three writes its address to `I`. -/
theorem indexInstructionsWriteOnlyI : Obligations.IndexInstructionsWriteOnlyI := by
  unfold Obligations.IndexInstructionsWriteOnlyI
  refine ⟨rowDecodes_of_mem (by simp [opcodeTable]), rowDecodes_of_mem (by simp [opcodeTable]),
    rowDecodes_of_mem (by simp [opcodeTable]), fun nnn x s => ⟨?ldI, ?addI, ?ldF⟩⟩
  case ldI => exact ⟨_, rfl, toNat_zext16 nnn, rfl⟩
  case addI => exact ⟨_, rfl, State.toNat_add_getV16 s.i x, rfl⟩
  case ldF => exact ⟨_, rfl, toNat_glyphAddr (s.getV x), rfl⟩

/-! ## The frames of a store and of `INDEX_AFTER_LDST` -/

/-- A store writes memory only. -/
theorem State.setBytes_frame (s : State) (addr : Nat) (bs : List Byte) :
    s.setBytes addr bs = { s with mem := (s.setBytes addr bs).mem } := by
  induction bs generalizing s addr with
  | nil => rfl
  | cons b bs ih => exact ih (s.setByte addr b) (addr + 1)

theorem State.advance_setBytes_frame (s : State) (addr : Nat) (bs : List Byte) :
    (s.setBytes addr bs).advance = { s with mem := (s.setBytes addr bs).mem, pc := s.pc + 2 } :=
  congrArg State.advance (State.setBytes_frame s addr bs)

/-- A block load writes registers only. -/
theorem State.loadRegBlock_advance_frame (s : State) (x : Reg) (bs : List Byte) :
    s.advance.loadRegBlock x bs = { s with v := (s.advance.loadRegBlock x bs).v, pc := s.pc + 2 } := rfl

/-- `t` is `u` after `I` was kept or moved by `x + 1`, as `INDEX_AFTER_LDST` says, and the step was ended. -/
structure MovesIndex (u t : State) (x : Reg) : Prop where
  unchanged : u.cfg.indexAfterLdst = .unchanged → t.i = u.i
  moved : u.cfg.indexAfterLdst = .addXPlus1 → t.i.toNat = (u.i.toNat + x.val + 1) % 65536
  frame : t = { u with i := t.i, wait := none }

theorem done_indexAfterLdst_movesIndex (u : State) (x : Reg) :
    ∃ t, done (u.indexAfterLdst x) = .next t ∧ MovesIndex u t x := by
  refine ⟨_, rfl, ?unchanged, ?moved, ?frame⟩ <;> unfold State.indexAfterLdst
  case unchanged => intro hc; rw [hc]
  case moved => intro hc; rw [hc]; exact BitVec.toNat_ofNat _ 16
  case frame => cases u.cfg.indexAfterLdst <;> rfl

theorem MovesIndex.byteAt_eq (h : MovesIndex u t x) (a : Nat) : t.byteAt a = u.byteAt a := by
  rw [h.frame]; rfl

/-! ## The register blocks (R183, R184) -/

/-- Settles O31: the store is checked as a whole, and only then are the bytes written and `I` moved. -/
theorem registerBlockStoreWritesAllOrNothing : Obligations.RegisterBlockStoreWritesAllOrNothing := by
  unfold Obligations.RegisterBlockStoreWritesAllOrNothing
  refine ⟨rowDecodes_of_mem (by simp [opcodeTable]), fun x s hw => ⟨fun h => ?inside, fun h => execLdMemVx_out h⟩⟩
  case inside =>
    have hr : s.indexAddr + x.val < memSize := Nat.lt_succ_of_le h
    obtain ⟨t, ht, hm⟩ := done_indexAfterLdst_movesIndex (s.setBytes s.indexAddr (s.regBlock x)).advance x
    have hbyte := hm.byteAt_eq
    rw [State.advance_setBytes_frame] at hm
    refine ⟨t, (execLdMemVx_in hr).trans ht, fun k hk => ?stored, fun a ha => ?kept, hm.unchanged, hm.moved, ?frame⟩
    case stored => exact (hbyte _).trans (State.byteAt_setBytes_regBlock hw hr hk)
    case kept => exact (hbyte a).trans (State.byteAt_setBytes_outside (by rw [length_regBlock]; omega))
    case frame => rw [hm.frame]

/-- Settles O32: the load is checked as a whole, and only then are the registers written and `I` moved. -/
theorem registerBlockLoadReadsAllOrNothing : Obligations.RegisterBlockLoadReadsAllOrNothing := by
  unfold Obligations.RegisterBlockLoadReadsAllOrNothing
  refine ⟨rowDecodes_of_mem (by simp [opcodeTable]), fun x s => ⟨fun h => ?inside, fun h => execLdVxMem_out h⟩⟩
  case inside =>
    have hr : s.indexAddr + x.val < memSize := Nat.lt_succ_of_le h
    obtain ⟨t, ht, hv⟩ := execLdVxMem_getV hr
    obtain ⟨t', ht', hm⟩ :=
      done_indexAfterLdst_movesIndex (s.advance.loadRegBlock x (s.bytesAt s.indexAddr (x.val + 1))) x
    obtain rfl : t' = t := by
      rw [execLdVxMem_in hr, ht'] at ht; cases ht; rfl
    rw [State.loadRegBlock_advance_frame] at hm
    exact ⟨t', ht, hv, hm.unchanged, hm.moved, by rw [hm.frame]⟩

/-! ## The decimal digits (R185) -/

/-- Each of the three digits is below 10, so it is a byte as it is, and their weighted sum is the number. -/
theorem bcdDigits_spec (b : Byte) : ∃ hundreds tens units : Byte, bcdDigits b = [hundreds, tens, units] ∧
    hundreds.toNat < 10 ∧ tens.toNat < 10 ∧ units.toNat < 10 ∧
    100 * hundreds.toNat + 10 * tens.toNat + units.toNat = b.toNat := by
  have hb := b.isLt
  refine ⟨_, _, _, rfl, ?_⟩
  simp only [BitVec.toNat_ofNat]
  omega

theorem done_advance_setBytes (s : State) (addr : Nat) (bs : List Byte) :
    ∃ t, done (s.setBytes addr bs).advance = .next t ∧ (∀ a, t.byteAt a = (s.setBytes addr bs).byteAt a) ∧
      t = { s with mem := t.mem, pc := s.pc + 2, wait := none } :=
  ⟨_, rfl, fun _ => rfl, congrArg (fun u : State => { u with wait := none }) (State.advance_setBytes_frame s addr bs)⟩

/-- Settles O33: the three digits are stored in order, and `I` is not touched. -/
theorem bcdStoreWritesThreeDigits : Obligations.BcdStoreWritesThreeDigits := by
  unfold Obligations.BcdStoreWritesThreeDigits
  refine ⟨rowDecodes_of_mem (by simp [opcodeTable]), fun x s hw => ⟨fun h => ?inside, fun h => execLdB_out h⟩⟩
  case inside =>
    obtain ⟨hundreds, tens, units, hdigits, hlt, tlt, ult, hsum⟩ := bcdDigits_spec (s.getV x)
    have hr : s.indexAddr + [hundreds, tens, units].length ≤ memSize := Nat.succ_le_succ h
    obtain ⟨t, ht, hbyte, hframe⟩ := done_advance_setBytes s s.indexAddr [hundreds, tens, units]
    have hexec : execLdB x s = .next t := by rw [execLdB_in (Nat.lt_succ_of_le h), hdigits, ht]
    have h0 : t.byteAt s.indexAddr = hundreds :=
      (hbyte _).trans (State.byteAt_setBytes_inside hw hr (k := 0) (by simp))
    have h1 : t.byteAt (s.indexAddr + 1) = tens :=
      (hbyte _).trans (State.byteAt_setBytes_inside hw hr (k := 1) (by simp))
    have h2 : t.byteAt (s.indexAddr + 2) = units :=
      (hbyte _).trans (State.byteAt_setBytes_inside hw hr (k := 2) (by simp))
    have hkept (a : Nat) (ha : a < s.indexAddr ∨ s.indexAddr + 2 < a) : t.byteAt a = s.byteAt a :=
      (hbyte a).trans (State.byteAt_setBytes_outside ha)
    refine ⟨t, hexec, ?_⟩
    rw [h0, h1, h2]
    exact ⟨hlt, tlt, ult, hsum, hkept, hframe⟩

end Sys2Proof.Machine
end

section
/-! PROOFS. The display (spec 44_display.md R200 to R204): a pixel read after a pixel write, which pixels a row and a sprite
flip, and what `CLS` and `DRW` leave. -/

namespace Sys2Proof.Machine

variable {s t : State} {x y : Reg} {n : Nibble} {hit : Bool}

/-! ## Pixels -/

theorem Display.pixel_clear (px : Fin 64) (py : Fin 32) : Display.pixel Display.clear px py = false := by
  simp [Display.pixel, Display.clear]

theorem Display.pixel_setPixel (fb : Display) (qx px : Fin 64) (qy py : Fin 32) (b : Bool) :
    Display.pixel (Display.setPixel fb qx qy b) px py = if px = qx ∧ py = qy then b else Display.pixel fb px py := by
  by_cases hx : px = qx
  · subst hx
    simp [Display.pixel, Display.setPixel, Vector.getElem_set, Fin.ext_iff, eq_comm]
  · simp [Display.pixel, Display.setPixel, Fin.val_inj, hx, Ne.symm hx]

/-- Two displays with the same pixels are the same display. -/
theorem Display.ext_pixel {fb fb' : Display} (h : ∀ px py, Display.pixel fb px py = Display.pixel fb' px py) : fb = fb' :=
  Vector.ext fun i hi => Vector.ext fun j hj => h ⟨i, hi⟩ ⟨j, hj⟩

/-! ## Flipping a set of pixels -/

/-- From the display and collision flag `before` to those of `after` exactly the pixels in `area` are flipped, and a collision
is recorded for each of them that was on (R203). -/
structure Flips (area : Fin 64 → Fin 32 → Prop) (before after : Display × Bool) : Prop where
  flipped : ∀ px py, area px py → Display.pixel after.1 px py = !Display.pixel before.1 px py
  kept : ∀ px py, ¬ area px py → Display.pixel after.1 px py = Display.pixel before.1 px py
  hit_iff : after.2 = true ↔ before.2 = true ∨ ∃ px py, area px py ∧ Display.pixel before.1 px py = true

section
variable {area area' both : Fin 64 → Fin 32 → Prop} {d e f : Display × Bool}

theorem Flips.refl_of_empty (h : ∀ px py, ¬ area px py) : Flips area d d :=
  ⟨fun px py hp => absurd hp (h px py), fun _ _ _ => rfl, by simp [h]⟩

/-- Two flips after one another, of areas that share no pixel, flip the union: the second area still holds the pixels it held
before the first flip. -/
theorem Flips.trans (h : Flips area d e) (h' : Flips area' e f) (hdisj : ∀ px py, area px py → ¬ area' px py)
    (hboth : ∀ px py, both px py ↔ area px py ∨ area' px py) : Flips both d f where
  flipped px py hp := by
    obtain ha | ha' := (hboth px py).mp hp
    · rw [h'.kept px py (hdisj px py ha), h.flipped px py ha]
    · rw [h'.flipped px py ha', h.kept px py fun ha => hdisj px py ha ha']
  kept px py hp := by
    obtain ⟨ha, ha'⟩ := not_or.mp (mt (hboth px py).mpr hp)
    rw [h'.kept px py ha', h.kept px py ha]
  hit_iff := by
    have hon (px : Fin 64) (py : Fin 32) : (area' px py ∧ Display.pixel e.1 px py = true) ↔
        area' px py ∧ Display.pixel d.1 px py = true :=
      and_congr_right fun ha' => by rw [h.kept px py fun ha => hdisj px py ha ha']
    simp only [h'.hit_iff, h.hit_iff, hon, hboth, or_and_right, exists_or, or_assoc]

/-- Flipping the same area twice restores every pixel, whatever the collision flag between the two. -/
theorem Flips.restores {flag : Bool} (h : Flips area d e) (h' : Flips area (e.1, flag) f) : f.1 = d.1 := by
  refine Display.ext_pixel fun px py => ?_
  by_cases ha : area px py
  · rw [h'.flipped px py ha, h.flipped px py ha, Bool.not_not]
  · rw [h'.kept px py ha, h.kept px py ha]

end

/-- A drawing built up in `m` parts that share no pixel flips the union of the parts. -/
theorem flips_parts (part : Nat → Fin 64 → Fin 32 → Prop) (drawn : Nat → Display × Bool) (m : Nat)
    (hstep : ∀ k < m, Flips (part k) (drawn k) (drawn (k + 1)))
    (hdisj : ∀ j k, j < k → k < m → ∀ px py, part j px py → ¬ part k px py) :
    Flips (fun px py => ∃ k < m, part k px py) (drawn 0) (drawn m) := by
  induction m with
  | zero => exact .refl_of_empty fun _ _ ⟨_, hk, _⟩ => Nat.not_lt_zero _ hk
  | succ m ih =>
    have hfirst := ih (fun k hk => hstep k (Nat.lt_succ_of_lt hk)) fun j k hj hk => hdisj j k hj (Nat.lt_succ_of_lt hk)
    refine hfirst.trans (hstep m (Nat.lt_succ_self m)) ?disjoint fun px py => Nat.exists_lt_succ_right
    rintro px py ⟨j, hj, hp⟩
    exact hdisj j m hj (Nat.lt_succ_self m) px py hp

/-! ## The sprite -/

/-- A 1-bit of `row`, drawn from column `x0` on in the display row `qy`, lands on the pixel. -/
def rowCovers (x0 : Nat) (qy : Fin 32) (row : Byte) (px : Fin 64) (py : Fin 32) : Prop :=
  ∃ c < 8, spriteBit row c = true ∧ px = spriteX x0 c ∧ py = qy

/-- Less than 64 columns do not meet, although they wrap. -/
theorem spriteX_inj {x0 j k : Nat} (hj : j < 64) (hk : k < 64) (h : spriteX x0 j = spriteX x0 k) : j = k := by
  simp only [spriteX, Fin.ext_iff, Fin.ofNat] at h; omega

/-- Less than 32 rows do not meet, although they wrap. -/
theorem spriteY_inj {y0 j k : Nat} (hj : j < 32) (hk : k < 32) (h : spriteY y0 j = spriteY y0 k) : j = k := by
  simp only [spriteY, Fin.ext_iff, Fin.ofNat] at h; omega

theorem drawPixel_flips (qx : Fin 64) (qy : Fin 32) (bit : Bool) (d : Display × Bool) :
    Flips (fun px py => bit = true ∧ px = qx ∧ py = qy) d (drawPixel qx qy bit d) := by
  cases bit
  case false => exact .refl_of_empty (by simp)
  case true =>
    refine ⟨?flipped, ?kept, ?hit⟩ <;> simp only [drawPixel, if_true, Display.pixel_setPixel, true_and]
    case flipped => rintro px py ⟨rfl, rfl⟩; exact if_pos ⟨rfl, rfl⟩
    case kept => exact fun px py hp => if_neg hp
    case hit => simp

theorem drawRow_flips (x0 : Nat) (qy : Fin 32) (row : Byte) (d : Display × Bool) :
    Flips (rowCovers x0 qy row) d (drawRow x0 qy row d) := by
  refine flips_parts (fun c px py => spriteBit row c = true ∧ px = spriteX x0 c ∧ py = qy)
    (fun m => (List.range m).foldl (fun d c => drawPixel (spriteX x0 c) qy (spriteBit row c) d) d) 8
    (fun c _ => ?step) ?disjoint
  case step =>
    simp only [List.range_succ, List.foldl_append, List.foldl_cons, List.foldl_nil]
    exact drawPixel_flips _ _ _ _
  case disjoint =>
    rintro j k hj hk px py ⟨-, hpj, -⟩ ⟨-, hpk, -⟩
    have := spriteX_inj (by omega) (by omega) (hpj.symm.trans hpk)
    omega

/-- The last row is drawn on what the rows before it left. -/
theorem drawRows_concat (x0 y0 r : Nat) (rows : List Byte) (row : Byte) (d : Display × Bool) :
    drawRows x0 y0 r (rows ++ [row]) d = drawRow x0 (spriteY y0 (r + rows.length)) row (drawRows x0 y0 r rows d) := by
  induction rows generalizing r d with
  | nil => rfl
  | cons first rows ih =>
    simp only [List.cons_append, drawRows, ih, List.length_cons, Nat.add_assoc, Nat.add_comm 1]

theorem State.bytesAt_succ (s : State) (a m : Nat) : s.bytesAt a (m + 1) = s.bytesAt a m ++ [s.byteAt (a + m)] := by
  simp [State.bytesAt, List.range_succ]

/-- A sprite of at most 32 rows flips each pixel under one of its 1-bits once (R202). -/
theorem drawSprite_flips (s : State) (x0 y0 a : Nat) {m : Nat} (hm : m ≤ 32) (fb : Display) :
    Flips (fun px py => ∃ r < m, rowCovers x0 (spriteY y0 r) (s.byteAt (a + r)) px py) (fb, false)
      (drawSprite x0 y0 (s.bytesAt a m) fb) := by
  refine flips_parts (fun r => rowCovers x0 (spriteY y0 r) (s.byteAt (a + r)))
    (fun r => drawRows x0 y0 0 (s.bytesAt a r) (fb, false)) m (fun r _ => ?step) ?disjoint
  case step =>
    simp only [State.bytesAt_succ, drawRows_concat, State.length_bytesAt, Nat.zero_add]
    exact drawRow_flips _ _ _ _
  case disjoint =>
    rintro j k hj hk px py ⟨_, _, _, _, hpj⟩ ⟨_, _, _, _, hpk⟩
    have := spriteY_inj (by omega) (by omega) (hpj.symm.trans hpk)
    omega

/-- `spriteCovers` row by row. -/
theorem spriteCovers_iff (px : Fin 64) (py : Fin 32) : spriteCovers s x y n px py ↔
    ∃ r < n.toNat, rowCovers (s.spriteOrigin x y).1 (spriteY (s.spriteOrigin x y).2 r) (s.byteAt (s.indexAddr + r)) px py := by
  simp only [spriteCovers, rowCovers, State.spriteOrigin, spriteX, spriteY, spriteBit, Fin.ext_iff, Fin.ofNat]
  constructor
  · rintro ⟨r, c, hr, hc, hx, hy, hbit⟩; exact ⟨r, hr, c, hc, hbit, hx, hy⟩
  · rintro ⟨r, hr, c, hc, hbit, hx, hy⟩; exact ⟨r, c, hr, hc, hx, hy, hbit⟩

/-! ## The instructions -/

/-- Settles O35: the cleared display is written and nothing else. -/
theorem clsTurnsEveryPixelOff : Obligations.ClsTurnsEveryPixelOff := by
  unfold Obligations.ClsTurnsEveryPixelOff
  exact ⟨rowDecodes_of_mem (by simp [opcodeTable]), fun s => ⟨_, rfl, Display.pixel_clear, rfl⟩⟩

/-- `t` is `s` after `DRW Vx, Vy, n` completed with the collision flag `hit` (R204). -/
structure DrawsSprite (s t : State) (x y : Reg) (n : Nibble) (hit : Bool) : Prop where
  flips : Flips (spriteCovers s x y n) (s.fb, false) (t.fb, hit)
  vf : t.getV 15 = flagByte hit
  kept : ∀ z, z ≠ 15 → t.getV z = s.getV z
  frame : t = { s with fb := t.fb, v := t.v, pc := s.pc + 2, wait := none }

theorem exec_drw_drawsSprite (h : n = 0 ∨ s.indexAddr + n.toNat - 1 ≤ 0xFFF) :
    ∃ t hit, exec (.drw x y n) s = .next t ∧ DrawsSprite s t x y n hit := by
  have hin : n.toNat = 0 ∨ s.indexAddr + n.toNat ≤ memSize := by
    obtain rfl | h := h
    · exact .inl rfl
    · unfold memSize; omega
  refine ⟨_, _, execDrw_in n hin, ?flips, State.getV_setV_self _ regF _, fun z hz => State.getV_setV_ne _ regF z _ hz.symm, rfl⟩
  have hdraw := drawSprite_flips s (s.spriteOrigin x y).1 (s.spriteOrigin x y).2 s.indexAddr
    (show n.toNat ≤ 32 by omega) s.fb
  rwa [← funext₂ fun px py => propext (spriteCovers_iff px py)] at hdraw

theorem DrawsSprite.vf_eq_one (h : DrawsSprite s t x y n hit)
    (hon : ∃ px py, spriteCovers s x y n px py ∧ Display.pixel s.fb px py = true) : t.getV 15 = 1 := by
  have hhit : hit = true := h.flips.hit_iff.mpr (.inr hon)
  rw [h.vf, hhit]; rfl

theorem DrawsSprite.vf_eq_zero (h : DrawsSprite s t x y n hit)
    (hoff : ∀ px py, spriteCovers s x y n px py → Display.pixel s.fb px py = false) : t.getV 15 = 0 := by
  have hhit : hit = false := by
    rw [Bool.eq_false_iff]
    intro htrue
    obtain hfalse | ⟨px, py, hp, hon⟩ := h.flips.hit_iff.mp htrue
    · exact absurd hfalse Bool.false_ne_true
    · exact absurd hon (by rw [hoff px py hp]; exact Bool.false_ne_true)
  rw [h.vf, hhit]; rfl

theorem DrawsSprite.indexAddr_eq (h : DrawsSprite s t x y n hit) : t.indexAddr = s.indexAddr := by
  rw [h.frame]; rfl

theorem DrawsSprite.byteAt_eq (h : DrawsSprite s t x y n hit) (a : Nat) : t.byteAt a = s.byteAt a := by
  rw [h.frame]; rfl

/-- A draw that kept both coordinates leaves the sprite at its place: it writes neither `I` nor memory. -/
theorem DrawsSprite.spriteCovers_eq (h : DrawsSprite s t x y n hit) (hx : t.getV x = s.getV x) (hy : t.getV y = s.getV y) :
    spriteCovers t x y n = spriteCovers s x y n := by
  funext px py
  simp only [spriteCovers, h.indexAddr_eq, h.byteAt_eq, hx, hy]

/-- Settles O36: the rows, and the columns of a row, land on different pixels, so every covered pixel is flipped once. -/
theorem drawFlipsExactlyTheCoveredPixels : Obligations.DrawFlipsExactlyTheCoveredPixels := by
  unfold Obligations.DrawFlipsExactlyTheCoveredPixels
  refine ⟨rowDecodes_of_mem (by simp [opcodeTable]), fun x y n s => ⟨fun h => ?inside, fun h0 h => ?outside⟩⟩
  case inside =>
    obtain ⟨t, hit, ht, hd⟩ := exec_drw_drawsSprite (x := x) (y := y) h
    exact ⟨t, ht, hd.flips.flipped, hd.flips.kept, hd.vf_eq_one, hd.vf_eq_zero, hd.kept, hd.frame⟩
  case outside =>
    have hpos : 0 < n.toNat := Nat.pos_of_ne_zero fun hn => h0 (BitVec.eq_of_toNat_eq hn)
    exact execDrw_out n hpos (by unfold memSize; omega)

/-- Settles O37: the second draw flips the same pixels back, and those it finds on are those that were off before the first. -/
theorem drawingTwiceRestoresTheDisplay : Obligations.DrawingTwiceRestoresTheDisplay := by
  unfold Obligations.DrawingTwiceRestoresTheDisplay
  intro x y n s h
  obtain ⟨t, hit, ht, hd⟩ := exec_drw_drawsSprite (x := x) (y := y) h
  refine ⟨t, ht, fun hx hy => ?_⟩
  have hplace := hd.spriteCovers_eq hx hy
  obtain ⟨u, hit', hu, hd'⟩ := exec_drw_drawsSprite (s := t) (x := x) (y := y) (hd.indexAddr_eq ▸ h)
  have hrestored : u.fb = s.fb := hd.flips.restores (hplace ▸ hd'.flips)
  refine ⟨u, hu, hrestored, fun ⟨px, py, hp, hoff⟩ => ?collision, fun hon => ?none⟩
  case collision =>
    exact hd'.vf_eq_one ⟨px, py, hplace ▸ hp, by rw [hd.flips.flipped px py hp, hoff, Bool.not_false]⟩
  case none =>
    refine hd'.vf_eq_zero fun px py hp => ?_
    rw [hplace] at hp
    rw [hd.flips.flipped px py hp, hon px py hp, Bool.not_true]

end Sys2Proof.Machine
end

section
/-! PROOFS. Keys (spec 45_input.md R220 to R225; 60_exceptions.md R258): the latch, the key skips and the one refusal, the key
that ends a wait, and a wait along a run. -/

namespace Sys2Proof.Machine

variable {s t : State} {ins : Instr} {x : Reg}

/-! ## The two ways a key wait ends -/

/-- `LD Vx, K` with a qualifying key. -/
theorem execLdVxK_key {k : KeyCode} (h : s.qualifyingKey = some k) :
    execLdVxK x s = done (s.advance.setV x (BitVec.ofNat 8 k.val)) := by
  simp only [execLdVxK, h]

/-- `LD Vx, K` with no qualifying key. -/
theorem execLdVxK_waits (h : s.qualifyingKey = none) : execLdVxK x s = .next { s with wait := some s.key } := by
  simp only [execLdVxK, h, waiting_eq]

theorem execLdVxK_writesReg {k : KeyCode} (x : Reg) (h : s.qualifyingKey = some k) :
    ∃ t, execLdVxK x s = .next t ∧ WritesReg s t x (BitVec.ofNat 8 k.val) := by
  rw [execLdVxK_key h]; exact done_setV_writesReg s x _

/-! ## The latch (R220) -/

theorem State.key_setKey (s : State) (code k : KeyCode) (b : Bool) :
    (s.setKey code b).key[k] = if k = code then b else s.key[k] := by
  simp [State.setKey, Vector.getElem_set, Fin.ext_iff, eq_comm]

/-- Settles O56: the host's write is one cell of the latch, and every ending of an instruction keeps the latch. -/
theorem setKeySetsOneFlag : Obligations.SetKeySetsOneFlag := by
  unfold Obligations.SetKeySetsOneFlag
  refine ⟨fun s code k b => ?host, fun ins s t h => ?instruction⟩
  case host => exact ⟨s.setKey code b, rfl, s.key_setKey code k b, rfl⟩
  case instruction => exact exec_frame (·.key) (fun _ _ _ => rfl) (fun _ hu => hu.key_eq) h

/-! ## The key skips, and the only refusal (R221 to R223) -/

theorem done_advance_skipIf_not (b : Bool) : done (s.advance.skipIf !b) =
    .next { s with pc := if b then s.pc + 2 else s.pc + 4, wait := none } := by
  cases b <;> exact done_advance_skipIf _

/-- Settles O38: with a code in range the skip reads that key's flag, and `SKNP` negates it. -/
theorem keySkipsReadTheLatchOrAreRefused : Obligations.KeySkipsReadTheLatchOrAreRefused := by
  unfold Obligations.KeySkipsReadTheLatchOrAreRefused
  refine ⟨rowDecodes_of_mem (by simp [opcodeTable]), rowDecodes_of_mem (by simp [opcodeTable]),
    fun x s => ⟨fun k hk => ⟨?skp, ?sknp⟩, fun h => ⟨execSkp_refused h, execSknp_refused h⟩⟩⟩
  case skp => exact (execSkp_code k hk).trans (done_advance_skipIf _)
  case sknp => exact (execSknp_code k hk).trans (done_advance_skipIf_not _)

/-- Every branch of an instruction other than `SKP` and `SKNP` completes, waits, or takes a fatal error as a next state
(log 3). -/
theorem exec_next_of_not_keySkip (s : State) (hskp : ∀ x, ins ≠ .skp x) (hsknp : ∀ x, ins ≠ .sknp x) :
    ∃ t, exec ins s = .next t := by
  cases ins
  case skp x => exact absurd rfl (hskp x)
  case sknp x => exact absurd rfl (hsknp x)
  case call nnn =>
    by_cases hs : s.sp.val < 16
    · exact ⟨_, execCall_room nnn hs⟩
    · exact ⟨_, execCall_full nnn (by omega)⟩
  case ret =>
    by_cases hs : s.sp.val = 0
    · exact ⟨_, execRet_empty hs⟩
    · exact ⟨_, execRet_entry ⟨s.sp.val - 1, by omega⟩ (by simp; omega)⟩
  case drw x y n =>
    by_cases hm : n.toNat = 0 ∨ s.indexAddr + n.toNat ≤ memSize
    · exact ⟨_, execDrw_in n hm⟩
    · exact ⟨_, execDrw_out n (by omega) (by omega)⟩
  case ldVxK x =>
    cases hq : s.qualifyingKey with
    | some k => exact ⟨_, execLdVxK_key hq⟩
    | none => exact ⟨_, execLdVxK_waits hq⟩
  case ldB x =>
    by_cases hm : s.indexAddr + 2 < memSize
    · exact ⟨_, execLdB_in hm⟩
    · exact ⟨_, execLdB_out (by omega)⟩
  case ldMemVx x =>
    by_cases hm : s.indexAddr + x.val < memSize
    · exact ⟨_, execLdMemVx_in hm⟩
    · exact ⟨_, execLdMemVx_out (by omega)⟩
  case ldVxMem x =>
    by_cases hm : s.indexAddr + x.val < memSize
    · exact ⟨_, execLdVxMem_in hm⟩
    · exact ⟨_, execLdVxMem_out (by omega)⟩
  all_goals exact ⟨_, rfl⟩

/-- Settles O13: a key skip is refused by its code, and every other instruction answers a next state. -/
theorem onlyKeySkipsAreEverRefused : Obligations.OnlyKeySkipsAreEverRefused := by
  unfold Obligations.OnlyKeySkipsAreEverRefused
  intro ins s
  by_cases hkey : ∃ x, ins = .skp x ∨ ins = .sknp x
  · obtain ⟨x, hins⟩ := hkey
    by_cases hk : (s.getV x).toNat < 16
    · left
      obtain rfl | rfl := hins
      · exact ⟨_, execSkp_code ⟨_, hk⟩ rfl⟩
      · exact ⟨_, execSknp_code ⟨_, hk⟩ rfl⟩
    · have hbig : 0xF < (s.getV x).toNat := by omega
      refine .inr ⟨?_, x, hins, hbig⟩
      obtain rfl | rfl := hins
      · exact execSkp_refused hbig
      · exact execSknp_refused hbig
  · exact .inl (exec_next_of_not_keySkip s (fun x h => hkey ⟨x, .inl h⟩) fun x h => hkey ⟨x, .inr h⟩)

/-! ## The key that ends a wait (R224) -/

theorem State.qualifies_iff (k : KeyCode) : s.qualifies k = true ↔ keyQualifies s k := by
  unfold State.qualifies keyQualifies State.isPressed
  cases s.cfg.keyWaitTrigger with
  | level => simp
  | pressEdge => cases s.wait <;> simp

/-- The search goes up through the codes, so it answers the least qualifying one. -/
theorem State.qualifyingKey_of_least {k : KeyCode} (hk : keyQualifies s k) (hleast : ∀ j, keyQualifies s j → k ≤ j) :
    s.qualifyingKey = some k := by
  refine List.find?_eq_some_iff_getElem.mpr ⟨(State.qualifies_iff k).mpr hk, k.val, by simp, by simp, fun j hj => ?_⟩
  simp only [List.getElem_finRange, Bool.not_eq_true', ← Bool.not_eq_true, State.qualifies_iff]
  exact fun hq => absurd (hleast _ hq) (by simpa [Fin.le_def] using hj)

theorem State.qualifyingKey_of_none (h : ∀ k, ¬ keyQualifies s k) : s.qualifyingKey = none :=
  List.find?_eq_none.mpr fun k _ => (State.qualifies_iff k).not.mpr (h k)

/-- Settles O39: the stored code is the one the search answers. -/
theorem keyWaitStoresLowestQualifyingKeyOrWaits : Obligations.KeyWaitStoresLowestQualifyingKeyOrWaits := by
  unfold Obligations.KeyWaitStoresLowestQualifyingKeyOrWaits
  refine ⟨rowDecodes_of_mem (by simp [opcodeTable]), fun x s => ⟨fun k hk hleast => ?stores, fun h => ?waits⟩⟩
  case stores =>
    obtain ⟨t, ht, hw⟩ := execLdVxK_writesReg x (State.qualifyingKey_of_least hk hleast)
    exact ⟨t, ht, hw.getV_eq, hw.frame⟩
  case waits => exact execLdVxK_waits (State.qualifyingKey_of_none h)

/-! ## A wait along a run (R225) -/

/-- A step action whose instruction answers a running state leaves that state; the presented draw is taken away again. -/
theorem act_step_of_exec (rand : Byte) (hs : s.status = .running) (hf : s.fetchInstr = .ok ins)
    (he : exec ins { s with randIn := some rand } = .next t) (ht : t.status = .running) :
    act (.step rand) s = ({ t with randIn := s.randIn }, .ok) := by
  have hstep : step { s with randIn := some rand } = .next t :=
    (step_of_fetch (s := { s with randIn := some rand }) hs hf).trans he
  rw [act_step, hstep, stepResult]
  simp only [ht]

theorem runActions_append (as bs : List Action) (run : Run) :
    runActions (as ++ bs) run = runActions bs (runActions as run) := by
  induction as generalizing run with
  | nil => rfl
  | cons a as ih => exact ih (run.act a)

/-- A state that no action of a schedule changes is the state at its end. -/
theorem runActions_state_of_fixed {as : List Action} {run : Run} (hrun : run.state = s)
    (h : ∀ a ∈ as, (act a s).1 = s) : (runActions as run).state = s := by
  induction as generalizing run with
  | nil => exact hrun
  | cons a as ih =>
    obtain ⟨ha, has⟩ := List.forall_mem_cons.mp h
    exact ih (run := run.act a) ((congrArg (fun u => (act a u).1) hrun).trans ha) has

/-- A running block whose next instruction is `LD Vx, K`, with all keys up. -/
structure WaitsAllUp (s : State) (x : Reg) : Prop where
  running : s.status = .running
  fetch : s.fetchInstr = .ok (.ldVxK x)
  up : ∀ k : KeyCode, s.key[k] = false

/-- The state that a key wait with no qualifying key leaves. -/
def State.waited (s : State) : State := { s with wait := some s.key }

theorem WaitsAllUp.waited (h : WaitsAllUp s x) : WaitsAllUp s.waited x := ⟨h.running, h.fetch, h.up⟩

theorem not_keyQualifies_of_up (h : ∀ k : KeyCode, s.key[k] = false) (k : KeyCode) : ¬ keyQualifies s k := by
  rintro (⟨-, hk⟩ | ⟨-, snap, -, hk, -⟩)
  all_goals exact absurd ((h k).symm.trans hk) Bool.false_ne_true

theorem WaitsAllUp.act_step (h : WaitsAllUp s x) (rand : Byte) : act (.step rand) s = (s.waited, .ok) :=
  act_step_of_exec rand h.running h.fetch
    (execLdVxK_waits (State.qualifyingKey_of_none (not_keyQualifies_of_up h.up))) h.running

/-- The first step takes the snapshot, and no later one changes anything. -/
theorem WaitsAllUp.run_steps (h : WaitsAllUp s x) {draws : List Byte} (hne : draws ≠ []) :
    (runActions (draws.map .step) (Run.start s)).state = s.waited := by
  cases draws with
  | nil => exact absurd rfl hne
  | cons rand draws =>
    have hfirst : ((Run.start s).act (.step rand)).state = s.waited := congrArg Prod.fst (h.act_step rand)
    refine runActions_state_of_fixed (run := (Run.start s).act (.step rand)) hfirst fun a ha => ?_
    obtain ⟨r, -, rfl⟩ := List.mem_map.mp ha
    exact congrArg Prod.fst (h.waited.act_step r)

/-- Once the wait has executed with all keys up, the key pressed next is pressed now and was not in the snapshot, so it
qualifies under either trigger, and it is the only one that is pressed. -/
theorem WaitsAllUp.qualifyingKey_pressed (h : WaitsAllUp s x) (code : KeyCode) :
    (s.waited.setKey code true).qualifyingKey = some code := by
  have hpressed : (s.waited.setKey code true).key[code] = true := by rw [State.key_setKey, if_pos rfl]
  refine State.qualifyingKey_of_least ?qualifies fun j hj => ?least
  case qualifies =>
    cases hc : s.cfg.keyWaitTrigger with
    | level => exact .inl ⟨hc, hpressed⟩
    | pressEdge => exact .inr ⟨hc, s.key, rfl, hpressed, h.up code⟩
  case least =>
    have hj : (s.waited.setKey code true).key[j] = true := by
      obtain ⟨-, hj⟩ | ⟨-, snap, -, hj, -⟩ := hj
      all_goals exact hj
    by_cases hjc : j = code
    · exact hjc.ge
    · rw [State.key_setKey, if_neg hjc] at hj
      exact absurd ((h.up j).symm.trans hj) Bool.false_ne_true

/-- Settles O40: the steps end in the waiting state, and there the pressed key is the one the next step stores. -/
theorem keyWaitEndsAtTheFirstPress : Obligations.KeyWaitEndsAtTheFirstPress := by
  unfold Obligations.KeyWaitEndsAtTheFirstPress
  intro x s draws code rand hs hf hup hne
  have h : WaitsAllUp s x := ⟨hs, hf, hup⟩
  refine ⟨h.run_steps hne, _, rfl, ?_⟩
  obtain ⟨t, ht, hw⟩ := execLdVxK_writesReg (s := { s.waited.setKey code true with randIn := some rand }) x
    (h.qualifyingKey_pressed code)
  have hstatus : t.status = .running := by rw [hw.frame]; exact hs
  have hact : act (.step rand) (s.waited.setKey code true) = ({ t with randIn := s.randIn }, .ok) :=
    act_step_of_exec rand hs hf ht hstatus
  have hend : (runActions (draws.map .step ++ [.setKey code true, .step rand]) (Run.start s)).state =
      { t with randIn := s.randIn } :=
    calc (runActions (draws.map .step ++ [.setKey code true, .step rand]) (Run.start s)).state
      _ = (act (.step rand) ((runActions (draws.map .step) (Run.start s)).state.setKey code true)).1 := by
        rw [runActions_append]; rfl
      _ = { t with randIn := s.randIn } := by rw [h.run_steps hne, hact]
  rw [hend]
  exact ⟨hw.dest, by rw [hw.frame]; rfl, by rw [hw.frame], hstatus⟩

end Sys2Proof.Machine
end

section
/-! PROOFS. Timers (spec 46_timers.md R240 to R248): the tick along a run, and the moves between a register and a timer. -/

namespace Sys2Proof.Machine

variable {s t : State} {n : Nat}

/-! ## Ticks (R245, R248) -/

/-- `t` is `s` after `n` ticks: each timer counted down by `n`, stopping at 0, and nothing else changed. -/
structure Ticked (n : Nat) (s t : State) : Prop where
  dt : t.dt.toNat = s.dt.toNat - n
  st : t.st.toNat = s.st.toNat - n
  frame : t = { s with dt := t.dt, st := t.st }

/-- The stop at 0 is the natural subtraction's own. -/
theorem toNat_tickTimer (b : Byte) : (tickTimer b).toNat = b.toNat - 1 := by
  unfold tickTimer
  split
  case isTrue h => rw [h]; rfl
  case isFalse h => bv_omega

theorem Ticked.zero (s : State) : Ticked 0 s s := ⟨rfl, rfl, rfl⟩

/-- One tick before `n` others is `n + 1` ticks. -/
theorem Ticked.succ_of_tick (h : Ticked n s.tick t) : Ticked (n + 1) s t where
  dt := by rw [h.dt, State.tick_dt, toNat_tickTimer, Nat.sub_sub, Nat.add_comm]
  st := by rw [h.st, State.tick_st, toNat_tickTimer, Nat.sub_sub, Nat.add_comm]
  frame := h.frame

theorem runActions_tickTimers_ticked (n : Nat) (run : Run) :
    Ticked n run.state (runActions (List.replicate n .tickTimers) run).state := by
  induction n generalizing run with
  | zero => exact .zero run.state
  | succ n ih => exact (ih (run.act .tickTimers)).succ_of_tick

/-- Settles O42, by induction on the number of ticks. -/
theorem ticksCountBothTimersDownToZero : Obligations.TicksCountBothTimersDownToZero := by
  unfold Obligations.TicksCountBothTimersDownToZero
  intro n s
  have h := runActions_tickTimers_ticked n (Run.start s)
  exact ⟨_, rfl, h.dt, h.st, h.frame⟩

/-! ## The moves (R240 to R242) and `sound_active` (R247) -/

/-- `sound_active` is on exactly while the sound timer is not 0. -/
theorem State.soundActivePort_iff (s : State) : s.soundActivePort = true ↔ s.st.toNat ≠ 0 := by
  rw [State.soundActivePort, decide_eq_true_iff, Ne, BitVec.toNat_eq]; rfl

/-- Settles O41: the load writes one register, and each store is one timer's own write. -/
theorem timerInstructionsMoveTheirByte : Obligations.TimerInstructionsMoveTheirByte := by
  unfold Obligations.TimerInstructionsMoveTheirByte
  refine ⟨rowDecodes_of_mem (by simp [opcodeTable]), rowDecodes_of_mem (by simp [opcodeTable]),
    rowDecodes_of_mem (by simp [opcodeTable]), fun x s => ⟨?ldVxDt, ?ldDtVx, ?ldStVx⟩⟩
  case ldVxDt =>
    obtain ⟨t, ht, hw⟩ := done_setV_writesReg s x s.dt
    exact ⟨t, ht, hw.getV_eq, hw.frame⟩
  case ldDtVx => rfl
  case ldStVx => exact ⟨_, rfl, rfl, State.soundActivePort_iff _, rfl⟩

end Sys2Proof.Machine
end

section
/-! PROOFS. Which instruction raises which fatal error (spec 60_exceptions.md R251, R252), and the faulted state, which only
`reset` leaves (R256). -/

namespace Sys2Proof.Machine

variable {s t u : State} {ins : Instr} {kind : FaultKind} {addr : Option Nat}

/-! ## The instructions that raise (R251, R252) -/

/-- The instruction raises an error of this kind at this address: one constructor for each row of R251 that an instruction can
raise, with its condition. -/
inductive Raises (s : State) : Instr → FaultKind → Option Nat → Prop
  | call (nnn : Addr12) (h : s.sp.val = 16) : Raises s (.call nnn) .stackOverflow none
  | ret (h : s.sp.val = 0) : Raises s .ret .stackUnderflow none
  | drw (x y : Reg) (n : Nibble) (h0 : 0 < n.toNat) (h : memSize < s.indexAddr + n.toNat) :
      Raises s (.drw x y n) .memoryFault (some (max s.indexAddr memSize))
  | ldB (x : Reg) (h : memSize ≤ s.indexAddr + 2) : Raises s (.ldB x) .memoryFault (some (max s.indexAddr memSize))
  | ldMemVx (x : Reg) (h : memSize ≤ s.indexAddr + x.val) :
      Raises s (.ldMemVx x) .memoryFault (some (max s.indexAddr memSize))
  | ldVxMem (x : Reg) (h : memSize ≤ s.indexAddr + x.val) :
      Raises s (.ldVxMem x) .memoryFault (some (max s.indexAddr memSize))

/-- Under the condition of its row the instruction takes the row's error, with the record naming the instruction. -/
theorem Raises.exec_eq (h : Raises s ins kind addr) : exec ins s = raise s (recordOf ins kind addr s) := by
  cases h with
  | call nnn h => exact execCall_full nnn h
  | ret h => exact execRet_empty h
  | drw x y n h0 h => exact execDrw_out n h0 h
  | ldB x h => exact execLdB_out h
  | ldMemVx x h => exact execLdMemVx_out h
  | ldVxMem x h => exact execLdVxMem_out h

theorem status_eq_of_done (h : done u = .next t) (hu : u.status = s.status) : t.status = s.status := by
  cases h; exact hu

/-- Without the condition of a row of `Raises` an instruction takes no error: it completes, waits or is refused. -/
theorem exec_keeps_status (hr : ∀ kind addr, ¬ Raises s ins kind addr) (h : exec ins s = .next t) : t.status = s.status := by
  cases ins <;> simp only [exec] at h
  case call nnn =>
    have hs : s.sp.val ≠ 16 := fun hs => hr _ _ (.call nnn hs)
    rw [execCall_room nnn (by omega)] at h; cases h; rfl
  case ret =>
    have hs : s.sp.val ≠ 0 := fun hs => hr _ _ (.ret hs)
    rw [execRet_entry ⟨s.sp.val - 1, by omega⟩ (by simp; omega)] at h; cases h; rfl
  case drw x y n =>
    have hm : ¬ (0 < n.toNat ∧ memSize < s.indexAddr + n.toNat) := fun hm => hr _ _ (.drw x y n hm.1 hm.2)
    rw [execDrw_in n (by omega)] at h; exact status_eq_of_done h rfl
  case ldB x =>
    have hm : ¬ memSize ≤ s.indexAddr + 2 := fun hm => hr _ _ (.ldB x hm)
    rw [execLdB_in (by omega)] at h; exact status_eq_of_done h (by simp)
  case ldMemVx x =>
    have hm : ¬ memSize ≤ s.indexAddr + x.val := fun hm => hr _ _ (.ldMemVx x hm)
    rw [execLdMemVx_in (by omega)] at h; exact status_eq_of_done h (by simp)
  case ldVxMem x =>
    have hm : ¬ memSize ≤ s.indexAddr + x.val := fun hm => hr _ _ (.ldVxMem x hm)
    rw [execLdVxMem_in (by omega)] at h; exact status_eq_of_done h (by simp)
  case skp x =>
    by_cases hk : (s.getV x).toNat < 16
    · rw [execSkp_code ⟨_, hk⟩ rfl] at h; exact status_eq_of_done h (by simp)
    · rw [execSkp_refused (by omega)] at h; cases h
  case sknp x =>
    by_cases hk : (s.getV x).toNat < 16
    · rw [execSknp_code ⟨_, hk⟩ rfl] at h; exact status_eq_of_done h (by simp)
    · rw [execSknp_refused (by omega)] at h; cases h
  case ldVxK x =>
    cases hq : s.qualifyingKey with
    | some k => rw [execLdVxK_key hq] at h; exact status_eq_of_done h rfl
    | none => rw [execLdVxK_waits hq] at h; cases h; rfl
  all_goals exact status_eq_of_done h (by simp)

/-- Settles O12: an instruction takes the error of its row of `Raises`, and with none of them it keeps `status`. -/
theorem eachErrorIsRaisedByItsInstructionsOnly : Obligations.EachErrorIsRaisedByItsInstructionsOnly := by
  unfold Obligations.EachErrorIsRaisedByItsInstructionsOnly
  intro ins s t h
  by_cases hr : ∃ kind addr, Raises s ins kind addr
  case neg => exact .inl (exec_keeps_status (fun kind addr hk => hr ⟨kind, addr, hk⟩) h)
  case pos =>
    obtain ⟨kind, addr, hr⟩ := hr
    obtain rfl : _ = t := Host.Outcome.next.inj (hr.exec_eq.symm.trans h)
    refine .inr ⟨recordOf ins kind addr s, rfl, rfl, ?_⟩
    cases hr with
    | call nnn hs => exact .inl ⟨rfl, hs, nnn, rfl⟩
    | ret hs => exact .inr (.inl ⟨rfl, hs, rfl⟩)
    | drw x y n h0 hm => exact .inr (.inr ⟨rfl, rfl, .inl ⟨x, y, n, rfl, Nat.le_sub_one_of_lt hm⟩⟩)
    | ldB x hm => exact .inr (.inr ⟨rfl, rfl, .inr (.inl ⟨x, rfl, hm⟩)⟩)
    | ldMemVx x hm => exact .inr (.inr ⟨rfl, rfl, .inr (.inr (.inl ⟨x, rfl, hm⟩))⟩)
    | ldVxMem x hm => exact .inr (.inr ⟨rfl, rfl, .inr (.inr (.inr ⟨x, rfl, hm⟩))⟩)

/-! ## The faulted state along a run (R256) -/

/-- `t` is `s` but for the parts that the host may write in the faulted state: memory, latch and timers. -/
def HostWritten (s t : State) : Prop := t = { s with mem := t.mem, key := t.key, dt := t.dt, st := t.st }

theorem HostWritten.refl (s : State) : HostWritten s s := rfl

theorem HostWritten.trans (h : HostWritten s t) (h' : HostWritten t u) : HostWritten s u := by
  unfold HostWritten at *
  exact h'.trans (by rw [h])

theorem HostWritten.status_eq (h : HostWritten s t) : t.status = s.status := by
  rw [show t = _ from h]

theorem State.setBytes_hostWritten (s : State) (a : Nat) (bs : List Byte) : HostWritten s (s.setBytes a bs) := by
  unfold HostWritten
  simpa using s.setBytes_frame a bs

theorem loadProgram_hostWritten (s : State) (bytes : List Byte) : HostWritten s (s.loadProgram bytes).1 := by
  unfold State.loadProgram
  split
  · exact .refl s
  · exact s.setBytes_hostWritten programBase bytes

section Faulted

variable {r : FaultRecord} (hs : s.status = .faulted r)
include hs

/-- A port access outside memory reports a fault to the host, and the first record stays. -/
theorem portFault_hostWritten (e : Nat) : HostWritten s (s.portFault e).1 := by
  rw [State.portFault_faulted hs]
  exact .refl s

theorem readByte_hostWritten (a : Nat) : HostWritten s (act (.readByte a) s).1 := by
  by_cases ha : a ≤ 0xFFF
  · rw [act_readByte ha]; exact .refl s
  · rw [act_readByte_invalid (by omega)]; exact portFault_hostWritten hs a

theorem readWord_hostWritten (a : Nat) : HostWritten s (act (.readWord a) s).1 := by
  by_cases ha : a < 0xFFF
  · rw [act_readWord ha]; exact .refl s
  · rw [act_readWord_invalid (by omega)]; exact portFault_hostWritten hs _

theorem writeByte_hostWritten (a : Nat) (v : Byte) : HostWritten s (act (.writeByte a v) s).1 := by
  by_cases ha : a ≤ 0xFFF
  · rw [act_writeByte ha]; exact s.setBytes_hostWritten a [v]
  · rw [act_writeByte_invalid (by omega)]; exact portFault_hostWritten hs a

/-- An action other than `reset` on a faulted block writes at most the parts the host may write; a step writes nothing. -/
theorem act_hostWritten {a : Action} (ha : a ≠ .reset) : HostWritten s (act a s).1 := by
  cases a with
  | reset => exact absurd rfl ha
  | loadProgram bytes => exact loadProgram_hostWritten s bytes
  | step rand => rw [(faultedBlockIsInert s r rand hs).2]; exact .refl s
  | tickTimers => exact rfl
  | setKey code pressed => exact rfl
  | readByte addr => exact readByte_hostWritten hs addr
  | writeByte addr v => exact writeByte_hostWritten hs addr v
  | readWord addr => exact readWord_hostWritten hs addr

end Faulted

/-- Along a run without `reset` a faulted block stays faulted, so every action is one on a faulted block. -/
theorem runActions_hostWritten {r : FaultRecord} {as : List Action} {run : Run} (hs : run.state.status = .faulted r)
    (has : .reset ∉ as) : HostWritten run.state (runActions as run).state := by
  induction as generalizing run with
  | nil => exact .refl run.state
  | cons a as ih =>
    obtain ⟨ha, has⟩ := not_or.mp (List.mem_cons.not.mp has)
    have hact : HostWritten run.state (run.act a).state := act_hostWritten hs (Ne.symm ha)
    exact hact.trans (ih (hact.status_eq.trans hs) has)

/-- Settles O57: the whole run writes at most what the host may write, which `status` is no part of. -/
theorem onlyResetLeavesTheFaultedState : Obligations.OnlyResetLeavesTheFaultedState := by
  unfold Obligations.OnlyResetLeavesTheFaultedState
  intro as run r hs has
  have h := runActions_hostWritten hs has
  exact ⟨_, rfl, h.status_eq.trans hs, h⟩

end Sys2Proof.Machine
end

section
/-! PROOFS. Reset, program load and boot (spec 10_state.md R42; 70_reset_and_hazards.md R290, R291, R300 to R303). -/

namespace Sys2Proof

/-! ## The reset contents of memory (10_state.md R42) -/

theorem Config.resetByte_font (c : Config) {a : Nat} (h : a < 80) : c.resetByte a = c.font[a] := by
  simp [resetByte, Vector.getD, h]

theorem Config.resetByte_above_font (c : Config) {a : Nat} (h : 80 ≤ a) : c.resetByte a = 0 := by
  simp [resetByte, Vector.getD, h]

namespace Machine

variable {s : State} {bytes : List Byte}

/-- With nothing listed, every address reads as its reset contents. -/
theorem State.byteAt_resetWith (c : Config) (a : Nat) : (State.resetWith c).byteAt a = c.resetByte a := rfl

theorem State.byteAt_resetAction (a : Nat) : s.resetAction.byteAt a = s.cfg.resetByte a := rfl

/-! ## Program load (70_reset_and_hazards.md R301, R302) -/

theorem State.loadProgram_fits (h : bytes.length ≤ 3584) : s.loadProgram bytes = (s.setBytes programBase bytes, .ok) :=
  if_neg (Nat.not_lt.mpr h)

theorem State.loadProgram_tooLarge (h : 3584 < bytes.length) : s.loadProgram bytes = (s, .programTooLarge) :=
  if_pos h

/-- A program of at most 3584 bytes ends inside memory. -/
theorem programBase_add_length_le (h : bytes.length ≤ 3584) : programBase + bytes.length ≤ memSize := by
  simp only [programBase, memSize]; omega

/-- Settles O52: a program that fits is written by `setBytes`, whose reads inside and outside its range are known. -/
theorem loadProgramCopiesAllOrNothing : Obligations.LoadProgramCopiesAllOrNothing := by
  unfold Obligations.LoadProgramCopiesAllOrNothing
  refine fun s bytes hw => ⟨fun h => ⟨_, State.loadProgram_fits h, ?copied, ?kept, ?frame⟩, State.loadProgram_tooLarge⟩
  case copied => exact fun k hk => State.byteAt_setBytes_inside hw (programBase_add_length_le h) hk
  case kept => exact fun a ha => State.byteAt_setBytes_outside ha
  case frame => exact s.setBytes_frame programBase bytes

/-! ## Boot (70_reset_and_hazards.md R300) -/

theorem boot_eq_setBytes (c : Config) (h : bytes.length ≤ 3584) :
    boot c bytes = (State.resetWith c).setBytes programBase bytes :=
  congrArg Prod.fst (State.loadProgram_fits h)

theorem boot_status (c : Config) (h : bytes.length ≤ 3584) : (boot c bytes).status = .running := by
  rw [boot_eq_setBytes c h, State.setBytes_status]; rfl

theorem boot_pc (c : Config) (h : bytes.length ≤ 3584) : (boot c bytes).pc = 0x200 := by
  rw [boot_eq_setBytes c h, State.setBytes_pc]; rfl

theorem boot_byteAt (c : Config) (h : bytes.length ≤ 3584) {k : Nat} (hk : k < bytes.length) :
    (boot c bytes).byteAt (0x200 + k) = bytes[k] := by
  rw [boot_eq_setBytes c h]
  exact State.byteAt_setBytes_inside (s := State.resetWith c) rfl (programBase_add_length_le h) hk

/-- After boot the fetch reads the program's first two bytes. -/
theorem boot_fetchWord (c : Config) {b0 b1 : Byte} {rest : List Byte} (h : (b0 :: b1 :: rest).length ≤ 3584) :
    (boot c (b0 :: b1 :: rest)).fetchWord = .ok (b0 ++ b1) := by
  have hpc : (boot c (b0 :: b1 :: rest)).pc.toNat = 0x200 := congrArg BitVec.toNat (boot_pc c h)
  have hhi : (boot c (b0 :: b1 :: rest)).byteAt 0x200 = b0 := boot_byteAt c h (k := 0) (by simp)
  have hlo : (boot c (b0 :: b1 :: rest)).byteAt (0x200 + 1) = b1 := boot_byteAt c h (k := 1) (by simp)
  rw [State.fetchWord_valid (by omega), hpc, hhi, hlo]

/-- Settles O51: the block is running after boot, and its fetch answers the word that decodes to the instruction. -/
theorem bootRunsTheFirstInstructionOfTheProgram : Obligations.BootRunsTheFirstInstructionOfTheProgram := by
  unfold Obligations.BootRunsTheFirstInstructionOfTheProgram
  intro c b0 b1 rest i hlen hd
  have hfits : (b0 :: b1 :: rest).length ≤ 3584 := by simp only [List.length_cons]; omega
  have hrunning := boot_status c hfits
  exact ⟨hrunning, step_of_fetch hrunning (State.fetchInstr_of_decode (boot_fetchWord c hfits) hd)⟩

/-! ## Reset (R290, R291), and the first step without a program (R303) -/

/-- Settles O49: memory reads as the reset contents and the display is clear; every other field is written by reset itself. -/
theorem resetLeavesTheListedValues : Obligations.ResetLeavesTheListedValues := by
  unfold Obligations.ResetLeavesTheListedValues
  refine fun s => ⟨s.resetAction, rfl, ?v, rfl, rfl, rfl, ?stack, rfl, rfl, ?font, ?zeros, Display.pixel_clear, ?key,
    rfl, rfl, rfl⟩
  case v => exact fun x => Vector.getElem_replicate x.isLt
  case stack => exact fun j => Vector.getElem_replicate j.isLt
  case font => exact fun a h => (State.byteAt_resetAction a).trans (s.cfg.resetByte_font h)
  case zeros => exact fun a h _ => (State.byteAt_resetAction a).trans (s.cfg.resetByte_above_font h)
  case key => exact fun k => Vector.getElem_replicate k.isLt

/-- Above the font memory is 0 after reset, so the fetch at 0x200 reads the word 0. -/
theorem State.fetchWord_resetWith (c : Config) : (State.resetWith c).fetchWord = .ok 0x0000 := by
  have hpc : (State.resetWith c).pc.toNat = 0x200 := rfl
  have hzero (a : Nat) (h : 80 ≤ a) : (State.resetWith c).byteAt a = 0 :=
    (State.byteAt_resetWith c a).trans (c.resetByte_above_font h)
  rw [State.fetchWord_valid (by omega), hpc, hzero _ (by omega), hzero _ (by omega)]
  rfl

/-- Settles O50: the word 0 matches no row of the table, so the fetch answers the record of `UnknownInstruction`. -/
theorem firstStepWithoutAProgramIsUnknown : Obligations.FirstStepWithoutAProgramIsUnknown := by
  unfold Obligations.FirstStepWithoutAProgramIsUnknown
  intro c
  have hunknown : decode 0x0000 = none := by decide
  exact step_of_fetch_error rfl (State.fetchInstr_unknown (State.fetchWord_resetWith c) hunknown)

end Machine
end Sys2Proof
end
